-- ==== Sys2Proof/Word.lean ====
section
/-! DEFINITION. The bit widths the spec works in: command words, bytes, color codes and port numbers. -/

namespace Sys2Proof

/-- A command word: 32 bits, bit 31 most significant (30_encoding.md R80). Register port values have
the same width (10_state.md R32). -/
abbrev Word := BitVec 32

/-- A character code, an attribute byte, a video-region byte or a port value (10_state.md R26,
20_memory.md R57). -/
abbrev Byte := BitVec 8

/-- A 4-bit color code `0x0` to `0xF`; every value is a legal color (10_state.md R24, 30_encoding.md
R85). -/
abbrev Color := BitVec 4

/-- An I/O port number: 16 bits (20_memory.md R50). -/
abbrev Port := BitVec 16

end Sys2Proof
end

