-- ==== Sys2Proof/Config.lean ====
section
/-! DEFINITION. What the spec fixes by name (the grid, the newline code), the parameters it leaves OPEN, and
the values it leaves free. -/

namespace Sys2Proof.Config

/-- `COLS`: cells per row (00_scope.md R5, 92_eei_decisions.md D28; assumption 14). -/
def cols : Nat := 80

/-- `ROWS` (00_scope.md R5). -/
def rows : Nat := 25

/-- `CELLS = COLS * ROWS`; as a cursor value it is the pending-scroll state (00_scope.md R5,
10_state.md R21). -/
def cells : Nat := cols * rows

/-- `LAST_ROW_START = CELLS - COLS` (00_scope.md R5). -/
def lastRowStart : Nat := cells - cols

/-- `NEWLINE`, the one character code PUTC interprets (00_scope.md R8). -/
def newline : Byte := 0x0A#8

/-- The parameters the spec leaves OPEN to the model: the video region (00_scope.md R6), the blank cell
(R7), the display-controller ports and values (R9) and the reset variant (R10). A State carries one
such record and no step changes it, so a statement about every state is a statement about every value
of every parameter. DESIGN CHOICE (assumption 1). -/
structure Params where
  /-- `VRAM_BASE`, the physical byte address of cell 0 (R6). -/
  vramBase : Nat
  /-- `PADDR_BITS`, the width of the physical address bus (R6). -/
  paddrBits : Nat
  /-- `BLANK_CHAR` (R7). -/
  blankChar : Byte
  /-- `BLANK_FG`, the neutral foreground of a blank cell (R7). -/
  blankFg : Color
  /-- `CRTC_INDEX` (R9). -/
  crtcIndex : Port
  /-- `CRTC_DATA` (R9). -/
  crtcData : Port
  /-- `CRTC_CURSOR_START` (R9). -/
  crtcCursorStart : Byte
  /-- `CURSOR_DISABLE_VALUE` (R9). -/
  cursorDisableValue : Byte
  /-- `INPUT_STATUS_1` (R9). -/
  inputStatus1 : Port
  /-- `ATTR_INDEX` (R9). -/
  attrIndex : Port
  /-- `ATTR_DATA_READ` (R9). -/
  attrDataRead : Port
  /-- `ATTR_MODE_SELECT` (R9). -/
  attrModeSelect : Byte
  /-- `BLINK_BIT` (R9). -/
  blinkBit : Byte
  /-- `RESET_CURSOR` (R10). -/
  resetCursor : BitVec 11
  /-- `RESET_FG` (R10). -/
  resetFg : Color
  /-- `RESET_BG` (R10). -/
  resetBg : Color
deriving DecidableEq, Repr

/-- The precondition of 00_scope.md R6: the video region lies below the top of the physical address
space. -/
abbrev Params.RegionFits (p : Params) : Prop :=
  p.vramBase + 2 * cells - 1 < 2 ^ p.paddrBits

/-- The reset variants the source names: `RESET_CURSOR` in {0, 1920} and `(RESET_FG, RESET_BG)` in
{(0xF, 0x0), (0x0, 0xF)} (00_scope.md R10). -/
abbrev Params.ResetVariant (p : Params) : Prop :=
  (p.resetCursor = 0#11 ∨ p.resetCursor = 1920#11) ∧
  ((p.resetFg = 0xF#4 ∧ p.resetBg = 0x0#4) ∨ (p.resetFg = 0x0#4 ∧ p.resetBg = 0xF#4))

/-- The parameter values 00_scope.md allows (R6, R10). -/
abbrev Params.WellFormed (p : Params) : Prop := p.RegionFits ∧ p.ResetVariant

/-- The default value 00_scope.md gives each parameter (R6, R7, R9, R10); the region base, the ports and
the port values are marked there as general knowledge. PRESUMED (assumption 2). -/
def defaults : Params where
  vramBase := 0xB8000
  paddrBits := 32
  blankChar := 0x20#8
  blankFg := 0x7#4
  crtcIndex := 0x3D4#16
  crtcData := 0x3D5#16
  crtcCursorStart := 0x0A#8
  cursorDisableValue := 0x20#8
  inputStatus1 := 0x3DA#16
  attrIndex := 0x3C0#16
  attrDataRead := 0x3C1#16
  attrModeSelect := 0x30#8
  blinkBit := 0x08#8
  resetCursor := 0#11
  resetFg := 0xF#4
  resetBg := 0x0#4

/-- Free value: the byte the display controller answers to the `n`-th draw. The model places no
constraint on it (20_memory.md R58, 92_eei_decisions.md D22; assumption 3). -/
opaque portDraw (n : Nat) : Byte

/-- Free value: the character and attribute of `FRONT[i]` after a reset that is draw number `n`. The spec
lets it be any value (10_state.md R41, 92_eei_decisions.md D11; assumption 4). -/
opaque frontDraw (n i : Nat) : Byte × Byte

/-- Free value: what the byte at physical address `a` held before the block first stored to it, such as
the firmware's text (70_reset_and_hazards.md R201, 20_memory.md R62; assumption 5). -/
opaque priorByte (a : Nat) : Byte

end Sys2Proof.Config
end

