-- ==== Sys2Proof/Machine/Grid.lean ====
section
/-! DEFINITION. Cells, slots and the whole-grid operations on the two cell arrays. Each whole-grid operation
runs over the list under a vector, so that the kernel can evaluate it. -/

namespace Sys2Proof.Machine

/-- `Cell(ch, at)`: a character code and an attribute byte (10_state.md R26). -/
structure Cell where
  ch : Byte
  attr : Byte
deriving DecidableEq, Repr

/-- A back-buffer slot: `NONE` (unstaged) or `SOME(c)` (staged) (10_state.md R29). -/
abbrev Slot := Option Cell

/-- The array whose entry `i` is `f i`. -/
def Grid.tabulate {α : Type} (n : Nat) (f : Nat → α) : Vector α n :=
  ⟨⟨(List.range n).map f⟩, by simp⟩

/-- The array whose entry `i` is `f (v[i]) (w[i])`. -/
def Grid.zipWith {α β γ : Type} {n : Nat} (f : α → β → γ) (v : Vector α n) (w : Vector β n) :
    Vector γ n :=
  ⟨⟨List.zipWith f v.toList w.toList⟩, by simp⟩

/-- The array whose entry `i` is `v[i + k]`, and `x` where `i + k` is past the end. -/
def Grid.shiftBy {α : Type} {n : Nat} (k : Nat) (x : α) (v : Vector α n) : Vector α n :=
  ⟨⟨v.toList.drop k ++ List.replicate (min k n) x⟩, by simp; omega⟩

end Sys2Proof.Machine
end

