-- ==== Sys2Proof/Machine/Operands.lean ====
section
/-! DEFINITION. Attribute packing, the blank cell, offsets, and the value a slot shows. -/

namespace Sys2Proof.Machine

open Sys2Proof.Config

/-- `pack(b, f) = (zext_8(b) << 4) | zext_8(f)` (40_output.md R100). -/
def pack (b f : Color) : Byte := (b.setWidth 8 <<< 4) ||| f.setWidth 8

/-- The foreground code of an attribute byte: bits `[3:0]` (10_state.md R25). -/
def attrFg (a : Byte) : Color := a.extractLsb' 0 4

/-- The background code of an attribute byte: bits `[7:4]` (10_state.md R25). -/
def attrBg (a : Byte) : Color := a.extractLsb' 4 4

/-- `BLANK(b) = Cell(BLANK_CHAR, pack(b, BLANK_FG))` (00_scope.md R7). -/
def blank (p : Params) (b : Color) : Cell := ⟨p.blankChar, pack b p.blankFg⟩

/-- A cell with background `b`, its character and foreground nibble kept (42_color.md R140). -/
def repaint (b : Color) (c : Cell) : Cell := ⟨c.ch, pack b (attrFg c.attr)⟩

/-- The offset of column `c`, row `r`: `r * COLS + c` (40_output.md R107). -/
def offset (c r : Nat) : Nat := r * cols + c

/-- The column of offset `i` (40_output.md R107). -/
def columnOf (i : Nat) : Nat := i % cols

/-- The row of offset `i` (40_output.md R107). -/
def rowOf (i : Nat) : Nat := i / cols

/-- The coordinates PUTAT accepts: `c < COLS` and `r < ROWS` (40_output.md R105). -/
abbrev InGrid (c r : Nat) : Prop := c < cols ∧ r < rows

/-- The offset of coordinates in the grid is an offset in the grid (40_output.md R107). -/
theorem offset_lt {c r : Nat} (h : InGrid c r) : offset c r < cells := by
  obtain ⟨hc, hr⟩ := h
  simp only [cols, rows] at hc hr
  simp only [offset, cells, cols, rows]
  omega

/-- `V(i)`, the cell a slot shows: its staged cell, else the front mirror's (41_scroll_commit.md R124,
42_color.md R140). -/
def shown (slot : Slot) (mirror : Cell) : Cell :=
  match slot with
  | some c => c
  | none => mirror

/-- The address of cell `i`'s character byte (20_memory.md R51). -/
def charAddr (p : Params) (i : Nat) : Nat := p.vramBase + 2 * i

/-- The address of cell `i`'s attribute byte (20_memory.md R51). -/
def attrAddr (p : Params) (i : Nat) : Nat := p.vramBase + 2 * i + 1

/-- The address lies in the video region `[VRAM_BASE, VRAM_BASE + 2*CELLS)` (20_memory.md R50). -/
def inRegion (p : Params) (a : Nat) : Bool :=
  decide (p.vramBase ≤ a) && decide (a < p.vramBase + 2 * cells)

end Sys2Proof.Machine
end

