-- ==== Sys2Proof/Machine/State.lean ====
section
/-! DEFINITION. The machine's state as plain data, the reasons a step can stop, and the state after reset. -/

namespace Sys2Proof.Machine

open Sys2Proof.Config

/-- Physical memory as the block has stored to it: pairs of address and byte with strictly rising
addresses. An unlisted address has no value here: the block has not stored to it, and it holds whatever
it held before (20_memory.md R54, 70_reset_and_hazards.md R201; assumption 5). -/
abbrev Memory := List Host.Cell

/-- One output event of the block (00_scope.md R15). -/
inductive Event where
  /-- `MemWrite(addr, 1, v)`: a one-byte store to the video region. -/
  | memWrite (addr : Nat) (v : Byte)
  /-- `PortWrite(port, v)`. -/
  | portWrite (port : Port) (v : Byte)
  /-- `v <- PortRead(port)`: a one-byte read that answered `v`. -/
  | portRead (port : Port) (v : Byte)
deriving DecidableEq, Repr

/-- One move of the host that the block takes in a step: a command word, or the reset signal, which the
host asserts between commands (00_scope.md R11, 60_exceptions.md R184, 70_reset_and_hazards.md R200).
The host has no move that breaks a duty (60_exceptions.md R184; assumption 9). -/
inductive Input where
  | command (w : Word)
  | reset
deriving DecidableEq, Repr

/-- The block's state (10_state.md R20), and around it the video region, the event history, the host's
moves still to come, the parameters and the count of draws. -/
structure State where
  /-- `CURSOR`: 11 bits, 0 to `CELLS` inclusive (10_state.md R21). -/
  cursor : BitVec 11
  /-- `BG`: the current background color (10_state.md R22). -/
  bg : Color
  /-- `FG`: the current foreground color (10_state.md R23). -/
  fg : Color
  /-- `FRONT`: the cells last stored to the video region (10_state.md R28). -/
  front : Vector Cell cells
  /-- `BACK`: the staged cells (10_state.md R29). -/
  back : Vector Slot cells
  /-- `ERR_RANGE` (10_state.md R30). -/
  errRange : Bool
  /-- `ERR_ILLEGAL` (10_state.md R30). -/
  errIllegal : Bool
  /-- `ERR_CAUSE`: the cause code of the first error since reset (10_state.md R30). -/
  errCause : BitVec 2
  /-- `ERR_WORD`: the command word of the first error since reset (10_state.md R30). -/
  errWord : Word
  /-- `ci`: the index of the next command, without bound (10_state.md R27). -/
  ci : Nat
  /-- The video region, a passive memory the block stores to (00_scope.md R11, 20_memory.md R50). -/
  mem : Memory
  /-- The event history, oldest first (00_scope.md R12). -/
  history : List Event
  /-- The command stream: the host's moves still to come, next first (00_scope.md R11, R12). -/
  inputs : List Input
  /-- The OPEN parameters; no step changes them (assumption 1). -/
  params : Params
  /-- The model's own count of the free values drawn so far (assumption 3). -/
  draws : Nat
deriving DecidableEq, Repr

/-- Why the machine stops with a fault. Neither is a fault of the block: both name a state that breaks a
condition the spec states for every run, and no run from reset reaches one. -/
inductive Fault where
  /-- Raised by PUTC when it is to stage a character and the cursor is off the grid (2001 to 2047), a
  value 10_state.md R21 excludes. Safe (assumption 6). -/
  | cursorOffGrid
  /-- Raised by COMMIT when the parameters break the precondition of 00_scope.md R6, so that a store
  would address a byte past the physical address space. Safe (assumption 7). -/
  | regionBeyondBus
deriving DecidableEq, Repr

/-- Why an instruction has no meaning. -/
inductive Refusal where
  /-- Raised by a dispatch arm whose instruction is not modelled yet. Safe. -/
  | notModelled (mnemonic : String)
deriving DecidableEq, Repr

/-- `FRONT` after the reset that is draw number `n`: any value (10_state.md R41). -/
def frontAfterReset (n : Nat) : Vector Cell cells :=
  Grid.tabulate cells fun i => ⟨(frontDraw n i).1, (frontDraw n i).2⟩

/-- The machine right after its first reset, under the default parameters (10_state.md R41,
70_reset_and_hazards.md R200): nothing stored, nothing emitted, no command delivered yet. `FRONT` is a
free value (assumption 4). -/
def State.reset : State where
  cursor := defaults.resetCursor
  bg := defaults.resetBg
  fg := defaults.resetFg
  front := frontAfterReset 0
  back := Vector.replicate cells (some (blank defaults defaults.resetBg))
  errRange := false
  errIllegal := false
  errCause := 0#2
  errWord := 0#32
  ci := 0
  mem := []
  history := []
  inputs := []
  params := defaults
  draws := 1

end Sys2Proof.Machine
end

