-- ==== Sys2Proof/Machine/Flags.lean ====
section
/-! DEFINITION. The error causes and the computed bits of the STATUS register. -/

namespace Sys2Proof.Machine

open Sys2Proof.Config

/-- The causes a command can raise (60_exceptions.md R170). -/
inductive Cause where
  | illegal
  | range
deriving DecidableEq, Repr

/-- The cause code `ERR_CAUSE` records: 1 for ILLEGAL, 2 for RANGE (60_exceptions.md R170). -/
def causeCode : Cause → BitVec 2
  | .illegal => 1#2
  | .range => 2#2

/-- `SCROLL_PENDING`: one if and only if `CURSOR = CELLS`; computed, not stored (10_state.md R33). -/
def scrollPending (s : State) : Bool := decide (s.cursor.toNat = cells)

/-- `STATUS`: bit 0 ERR_RANGE, bit 1 ERR_ILLEGAL, bit 2 SCROLL_PENDING, bit 3 zero, bits 5:4 ERR_CAUSE,
the rest zero (10_state.md R33). -/
def statusWord (s : State) : Word :=
  0#26 ++ s.errCause ++ 0#1 ++ BitVec.ofBool (scrollPending s) ++ BitVec.ofBool s.errIllegal ++
    BitVec.ofBool s.errRange

end Sys2Proof.Machine
end

