-- ==== Sys2Proof/Machine/Memory.lean ====
section
/-! DEFINITION. Reading and storing bytes of physical memory, and its canonical form. -/

namespace Sys2Proof.Machine

/-- The byte the block last stored at `a`, or nothing if it has stored none there (20_memory.md R54). -/
def Memory.read : Memory → Nat → Option Byte
  | [], _ => none
  | (x, v) :: m, a => if x = a then some v else Memory.read m a

/-- Puts the byte `b` at address `a`, and hands the part of memory above `a` to `k`. -/
def Memory.splice (a : Nat) (b : Byte) (k : Memory → Memory) : Memory → Memory
  | [] => (a, b) :: k []
  | (x, v) :: m =>
    if x < a then (x, v) :: Memory.splice a b k m
    else (a, b) :: k (if x = a then m else (x, v) :: m)

/-- A one-byte store (20_memory.md R53). -/
def Memory.write (m : Memory) (a : Nat) (b : Byte) : Memory := Memory.splice a b id m

/-- The stores of one COMMIT, whose addresses rise (41_scroll_commit.md R122), in one pass over memory.
`storeRising_eq_foldl_write` (Laws/Memory.lean) shows it is one `write` after another. -/
def Memory.storeRising (stores : List Host.Cell) : Memory → Memory :=
  stores.foldr (fun c k => Memory.splice c.1 c.2 k) id

/-- Addresses rise strictly along the list, each above `lo`. -/
def Memory.risesAbove : Nat → Memory → Bool
  | _, [] => true
  | lo, (x, _) :: m => decide (lo < x) && Memory.risesAbove x m

/-- The canonical form: strictly rising addresses. An unlisted address has no value, so no entry can
equal what an unlisted address reads as. -/
def Memory.wf : Memory → Bool
  | [] => true
  | (x, _) :: m => Memory.risesAbove x m

end Sys2Proof.Machine
end

