-- ==== Sys2Proof/Machine/Ops.lean ====
section
/-! DEFINITION. The operations the commands share: output events and port accesses, recording an error, staging,
scrolling, cursor movement, the stores of a commit, and reset. -/

namespace Sys2Proof.Machine

open Sys2Proof.Config

/-- Appends output events to the history, in order (00_scope.md R12, 20_memory.md R61). -/
def emit (es : List Event) (s : State) : State := { s with history := s.history ++ es }

/-- `PortWrite(port, v)` (00_scope.md R15). -/
def portWrite (port : Port) (v : Byte) (s : State) : State := emit [.portWrite port v] s

/-- `v <- PortRead(port)`, for the value `v` the controller answers; it uses up one draw (00_scope.md
R15, 20_memory.md R58). -/
def portRead (port : Port) (v : Byte) (s : State) : State :=
  { emit [.portRead port v] s with draws := s.draws + 1 }

/-- `raise Error(k, w)`: the block's whole answer to an error. The first error since reset fixes the cause
and the word; every error sets its bit (60_exceptions.md R172). No control is transferred, nothing else
is saved, and there is nothing to return from (R174, R175). -/
def raiseError (k : Cause) (w : Word) (s : State) : State :=
  { s with
    errCause := if s.errCause = 0#2 then causeCode k else s.errCause
    errWord := if s.errCause = 0#2 then w else s.errWord
    errIllegal := s.errIllegal || decide (k = .illegal)
    errRange := s.errRange || decide (k = .range) }

/-- `Stage(i, ch, color)` for an offset inside the grid (40_output.md R101). -/
def stage (i : Fin cells) (ch : Byte) (color : Color) (s : State) : State :=
  { s with back := s.back.set i (some ⟨ch, pack s.bg color⟩) i.isLt }

/-- `Scroll()`: reconcile the unstaged slots with the mirror, shift up one row, blank the bottom row with
the current background, and put the cursor at its start (41_scroll_commit.md R120). -/
def scroll (s : State) : State :=
  { s with
    back := Grid.shiftBy cols (some (blank s.params s.bg))
      (Grid.zipWith (fun slot mirror => some (shown slot mirror)) s.back s.front)
    cursor := BitVec.ofNat 11 lastRowStart }

/-- `AdvanceOne()` (40_output.md R102). Its scroll can not fire from a cursor below `CELLS`, and is kept
as the spec keeps it (90_conflicts.md C2). -/
def advanceOne (s : State) : State :=
  if cells < s.cursor.toNat + 1 then scroll s
  else { s with cursor := BitVec.ofNat 11 (s.cursor.toNat + 1) }

/-- `NewlineAdvance()` (40_output.md R103). -/
def newlineAdvance (s : State) : State :=
  if lastRowStart ≤ s.cursor.toNat then scroll s
  else { s with cursor := BitVec.ofNat 11 (s.cursor.toNat - s.cursor.toNat % cols + cols) }

/-- PUTC's first step: a pending scroll is taken before anything else (40_output.md R104). -/
def takePendingScroll (s : State) : State := if s.cursor.toNat = cells then scroll s else s

/-- Sets the background and stages every slot with its staged or mirrored cell, repainted (42_color.md
R140). -/
def repaintAll (b : Color) (s : State) : State :=
  { s with
    bg := b
    back := Grid.zipWith (fun slot mirror => some (repaint b (shown slot mirror))) s.back s.front }

/-- The two stores of one slot: nothing for `NONE`, the character byte and then the attribute byte for a
staged cell (41_scroll_commit.md R122). -/
def slotStores (p : Params) (slot : Slot) (i : Nat) : List Host.Cell :=
  match slot with
  | some c => [(charAddr p i, c.ch), (attrAddr p i, c.attr)]
  | none => []

/-- Every store a COMMIT makes, in its order: slots in increasing offset (41_scroll_commit.md R122). -/
def commitStores (s : State) : List Host.Cell :=
  (List.zipWith (slotStores s.params) s.back.toList (List.range cells)).flatten

/-- COMMIT's effect: the stores reach the region and the history, `FRONT` takes every staged cell, and
every slot becomes `NONE` (41_scroll_commit.md R122; assumptions 12, 13). -/
def commitStaged (s : State) : State :=
  { s with
    mem := Memory.storeRising (commitStores s) s.mem
    history := s.history ++ (commitStores s).map fun c => .memWrite c.1 c.2
    front := Grid.zipWith shown s.back s.front
    back := Vector.replicate cells none }

/-- The reset signal: every piece of block state takes its reset value, `FRONT` any value (a fresh draw),
and nothing outside the block is touched (70_reset_and_hazards.md R200, R201; 10_state.md R41). -/
def assertReset (s : State) : State :=
  { s with
    cursor := s.params.resetCursor
    bg := s.params.resetBg
    fg := s.params.resetFg
    front := frontAfterReset s.draws
    back := Vector.replicate cells (some (blank s.params s.params.resetBg))
    errRange := false
    errIllegal := false
    errCause := 0#2
    errWord := 0#32
    ci := 0
    draws := s.draws + 1 }

end Sys2Proof.Machine
end

