-- ==== Sys2Proof/Machine/ColorControl.lean ====
section
/-! DEFINITION. The color-register commands SETBG and SETFG. -/

namespace Sys2Proof.Machine

/-- SETBG: sets the background and stages every cell, its staged or mirrored content repainted
(42_color.md R140). -/
def execSetbg (color : Color) (s : State) : Host.Outcome State Fault Refusal :=
  .next (repaintAll color s)

/-- SETFG: sets the foreground and repaints nothing (42_color.md R141). -/
def execSetfg (color : Color) (s : State) : Host.Outcome State Fault Refusal :=
  .next { s with fg := color }

end Sys2Proof.Machine
end

