-- ==== Sys2Proof/Machine/DisplayPorts.lean ====
section
/-! DEFINITION. The display-controller commands CURSOR_OFF and BLINK_TOGGLE. -/

namespace Sys2Proof.Machine

/-- CURSOR_OFF: selects the Cursor Start register and writes the disable value (43_display_ports.md
R151). -/
def execCursorOff (s : State) : Host.Outcome State Fault Refusal :=
  .next (portWrite s.params.crtcData s.params.cursorDisableValue
    (portWrite s.params.crtcIndex s.params.crtcCursorStart s))

/-- The four port events of BLINK_TOGGLE, when the controller answers `d0` and then `m`
(43_display_ports.md R152). -/
def blinkSequence (d0 m : Byte) (s : State) : State :=
  portWrite s.params.attrIndex (m ^^^ s.params.blinkBit)
    (portRead s.params.attrDataRead m
      (portWrite s.params.attrIndex s.params.attrModeSelect
        (portRead s.params.inputStatus1 d0 s)))

/-- BLINK_TOGGLE: the sequence with the next two draws as the controller's answers (43_display_ports.md
R152, 20_memory.md R58; assumption 3). -/
def execBlinkToggle (s : State) : Host.Outcome State Fault Refusal :=
  .next (blinkSequence (Config.portDraw s.draws) (Config.portDraw (s.draws + 1)) s)

end Sys2Proof.Machine
end

