-- ==== Sys2Proof/Syntax.lean ====
section
/-! DEFINITION. The commands of the block, one constructor for each row of spec/opcode_table.json. -/

namespace Sys2Proof

/-- The eight commands (30_encoding.md R86). Characters and colors are the bits the word carries; column
and row are the numbers the spec computes an offset from (40_output.md R107), and the fields that hold
them are checked in WellFormed. Operand order is that of the assembler (30_encoding.md R91). -/
inductive Instr where
  /-- PUTC: put character at the cursor (40_output.md R104). -/
  | putc (ch : Byte) (color : Color)
  /-- PUTAT: put character at a position (40_output.md R105). -/
  | putat (ch : Byte) (color : Color) (col row : Nat)
  /-- SETBG: set and repaint the background (42_color.md R140). -/
  | setbg (color : Color)
  /-- SETFG: set the current foreground (42_color.md R141). -/
  | setfg (color : Color)
  /-- SCROLL: move the staged screen up one row (41_scroll_commit.md R121). -/
  | scroll
  /-- COMMIT: store every staged cell to the video region (41_scroll_commit.md R122). -/
  | commit
  /-- CURSOR_OFF: hide the hardware text cursor (43_display_ports.md R151). -/
  | cursorOff
  /-- BLINK_TOGGLE: invert the controller's blink mode (43_display_ports.md R152). -/
  | blinkToggle
deriving DecidableEq, Repr

end Sys2Proof
end

