-- ==== Sys2Proof/WellFormed.lean ====
section
/-! DEFINITION. Which instructions fit their encoding. -/

namespace Sys2Proof

/-- An instruction is well-formed when each operand fits its field: COL has 7 bits (0 to 127 encodable)
and ROW has 5 (0 to 31 encodable), whether or not they lie inside the grid (30_encoding.md R82, R91).
Characters and colors fit by their type. -/
def Instr.wellFormed : Instr → Bool
  | .putc _ _ => true
  | .putat _ _ col row => decide (col < 128) && decide (row < 32)
  | .setbg _ => true
  | .setfg _ => true
  | .scroll => true
  | .commit => true
  | .cursorOff => true
  | .blinkToggle => true

end Sys2Proof
end

