-- ==== Sys2Proof/Decode.lean ====
section
/-! DEFINITION. Decoding of command words, total on all 2^32 of them, and the encoder. The decoder follows the
mask and match columns of 30_encoding.md R86; the encoder follows the bit-field tables of R82 to R84. -/

namespace Sys2Proof

/-- `OP = w[31:28]` (30_encoding.md R81). -/
def fieldOp (w : Word) : BitVec 4 := w.extractLsb' 28 4

/-- `CH = w[7:0]` (30_encoding.md R85). -/
def fieldCh (w : Word) : Byte := w.extractLsb' 0 8

/-- `COLOR = w[11:8]` (30_encoding.md R85). -/
def fieldColor (w : Word) : Color := w.extractLsb' 8 4

/-- `COL = zext(w[18:12])` (30_encoding.md R85). -/
def fieldCol (w : Word) : Nat := (w.extractLsb' 12 7).toNat

/-- `ROW = zext(w[23:19])` (30_encoding.md R85). -/
def fieldRow (w : Word) : Nat := (w.extractLsb' 19 5).toNat

/-- One row of the opcode map: a word belongs to it when `(w & mask) = pattern` (30_encoding.md R86). -/
structure OpcodeRow where
  mask : Word
  pattern : Word
  build : Word → Instr

/-- `(w & mask) = match` (30_encoding.md R86). -/
def OpcodeRow.hits (r : OpcodeRow) (w : Word) : Bool := w &&& r.mask == r.pattern

/-- The opcode map of 30_encoding.md R86, in its order. -/
def opcodeTable : List OpcodeRow :=
  [ ⟨0xFFFFF000#32, 0x10000000#32, fun w => .putc (fieldCh w) (fieldColor w)⟩,
    ⟨0xFF000000#32, 0x20000000#32,
      fun w => .putat (fieldCh w) (fieldColor w) (fieldCol w) (fieldRow w)⟩,
    ⟨0xFFFFF0FF#32, 0x30000000#32, fun w => .setbg (fieldColor w)⟩,
    ⟨0xFFFFF0FF#32, 0x40000000#32, fun w => .setfg (fieldColor w)⟩,
    ⟨0xFFFFFFFF#32, 0x50000000#32, fun _ => .scroll⟩,
    ⟨0xFFFFFFFF#32, 0x60000000#32, fun _ => .commit⟩,
    ⟨0xFFFFFFFF#32, 0x70000000#32, fun _ => .cursorOff⟩,
    ⟨0xFFFFFFFF#32, 0x80000000#32, fun _ => .blinkToggle⟩ ]

/-- Why a word is ILLEGAL. The block records the same cause for both (60_exceptions.md R170). -/
inductive Illegal where
  /-- `OP` is 0x0 or 0x9 to 0xF (30_encoding.md R88). -/
  | reservedOpcode
  /-- `OP` is 0x1 to 0x8 and a bit its format reserves is one (30_encoding.md R87). -/
  | reservedBits
deriving DecidableEq, Repr

/-- What a word decodes to: one of the eight commands, or ILLEGAL (30_encoding.md R89). -/
inductive Decoded where
  | command (i : Instr)
  | illegal (why : Illegal)
deriving DecidableEq, Repr

/-- `OP` values 0x1 to 0x8 belong to a command; the others are reserved (30_encoding.md R86, R88). -/
def opAssigned (w : Word) : Bool :=
  decide (1 ≤ (fieldOp w).toNat) && decide ((fieldOp w).toNat ≤ 8)

/-- A word decodes to the first command of the table it matches, and to ILLEGAL if none matches
(30_encoding.md R86). Only the word is read: no state changes how it decodes (R90). -/
def decode (w : Word) : Decoded :=
  match opcodeTable.find? (fun r => r.hits w) with
  | some r => .command (r.build w)
  | none => .illegal (if opAssigned w then .reservedBits else .reservedOpcode)

/-- Format P: OP, four reserved bits, ROW, COL, COLOR, CH (30_encoding.md R82). -/
def formatP (op : BitVec 4) (row : BitVec 5) (col : BitVec 7) (color : Color) (ch : Byte) : Word :=
  op ++ 0#4 ++ row ++ col ++ color ++ ch

/-- Format K: OP, 16 reserved bits, COLOR, eight reserved bits (30_encoding.md R83). -/
def formatK (op : BitVec 4) (color : Color) : Word := op ++ 0#16 ++ color ++ 0#8

/-- Format N: OP and 28 reserved bits (30_encoding.md R84). -/
def formatN (op : BitVec 4) : Word := op ++ 0#28

/-- The word of an instruction, from the format tables of 30_encoding.md R82 to R84 and the OP column of
R86. A PUTC's ROW and COL positions are reserved and zero (R82). For a PUTAT whose coordinates do not fit
their fields, which WellFormed refuses and no word decodes to, the coordinates are cut to the fields. -/
def encode : Instr → Word
  | .putc ch color => formatP 0x1#4 0#5 0#7 color ch
  | .putat ch color col row => formatP 0x2#4 (BitVec.ofNat 5 row) (BitVec.ofNat 7 col) color ch
  | .setbg color => formatK 0x3#4 color
  | .setfg color => formatK 0x4#4 color
  | .scroll => formatN 0x5#4
  | .commit => formatN 0x6#4
  | .cursorOff => formatN 0x7#4
  | .blinkToggle => formatN 0x8#4

/-- The instruction the decoder reads from a word numbered as spec/opcode_table.json numbers it. Every
command is exactly one 32-bit word delivered as a value, not as bytes (20_memory.md R55, 30_encoding.md
R80), so the table's numbering is the word's own. -/
def decodeTableWord (nbits w : Nat) : Option Instr :=
  match decode (BitVec.ofNat 32 (w % 2 ^ nbits)) with
  | .command i => some i
  | .illegal _ => none

end Sys2Proof
end

