-- ==== Sys2Proof/Machine/Output.lean ====
section
/-! DEFINITION. The character-output commands PUTC and PUTAT. -/

namespace Sys2Proof.Machine

open Sys2Proof.Config

/-- PUTC, once the pending scroll is taken: a newline moves the cursor; any other byte is staged at the
cursor, which then advances (40_output.md R104). Staging needs an offset inside the grid; with a cursor
10_state.md R21 excludes it faults (assumption 6). -/
def putAtCursor (ch : Byte) (color : Color) (s : State) : Host.Outcome State Fault Refusal :=
  if ch = newline then .next (newlineAdvance s)
  else if h : s.cursor.toNat < cells then .next (advanceOne (stage ⟨s.cursor.toNat, h⟩ ch color s))
  else .fault .cursorOffGrid

/-- PUTC (40_output.md R104). -/
def execPutc (ch : Byte) (color : Color) (s : State) : Host.Outcome State Fault Refusal :=
  putAtCursor ch color (takePendingScroll s)

/-- PUTAT: stages the cell at `row * COLS + col` and leaves the cursor alone, or records RANGE with its own
word when a coordinate is outside the grid (40_output.md R105). The word is `encode` of the command:
decoding is strict, so a command has one spelling (30_encoding.md R87; assumption 8). -/
def execPutat (ch : Byte) (color : Color) (col row : Nat) (s : State) :
    Host.Outcome State Fault Refusal :=
  if h : InGrid col row then .next (stage ⟨offset col row, offset_lt h⟩ ch color s)
  else .next (raiseError .range (encode (.putat ch color col row)) s)

end Sys2Proof.Machine
end

