-- ==== Sys2Proof/Machine/ScrollCommit.lean ====
section
/-! DEFINITION. The commands SCROLL and COMMIT. -/

namespace Sys2Proof.Machine

open Sys2Proof.Config

/-- SCROLL (41_scroll_commit.md R121). -/
def execScroll (s : State) : Host.Outcome State Fault Refusal := .next (scroll s)

/-- COMMIT (41_scroll_commit.md R122). Parameters that break the precondition of 00_scope.md R6 make it
fault, because it would store past the address space (assumption 7). -/
def execCommit (s : State) : Host.Outcome State Fault Refusal :=
  if s.params.RegionFits then .next (commitStaged s) else .fault .regionBeyondBus

end Sys2Proof.Machine
end

