-- ==== Sys2Proof/Machine/Dispatch.lean ====
section
/-! DEFINITION. One arm for each command, each a direct call of the command's meaning. -/

namespace Sys2Proof.Machine

/-- The meaning of a command (30_encoding.md R86). The command index is advanced by the step around it. -/
def exec (i : Instr) (s : State) : Host.Outcome State Fault Refusal :=
  match i with
  | .putc ch color => Sys2Proof.Machine.execPutc ch color s
  | .putat ch color col row => Sys2Proof.Machine.execPutat ch color col row s
  | .setbg color => Sys2Proof.Machine.execSetbg color s
  | .setfg color => Sys2Proof.Machine.execSetfg color s
  | .scroll => Sys2Proof.Machine.execScroll s
  | .commit => Sys2Proof.Machine.execCommit s
  | .cursorOff => Sys2Proof.Machine.execCursorOff s
  | .blinkToggle => Sys2Proof.Machine.execBlinkToggle s

end Sys2Proof.Machine
end

