-- ==== Sys2Proof/Machine/Sequencer.lean ====
section
/-! DEFINITION. Running one command word: decode, execute or reject, and advance the command index. -/

namespace Sys2Proof.Machine

/-- `ci <- ci + 1` (00_scope.md R12, 10_state.md R27). -/
def advanceIndex (s : State) : State := { s with ci := s.ci + 1 }

/-- Ends a command: the command index advances when the command did not stop. -/
def retire : Host.Outcome State Fault Refusal → Host.Outcome State Fault Refusal
  | .next s => .next (advanceIndex s)
  | .fault f => .fault f
  | .refused r => .refused r

/-- Executes one command word to completion. A word that decodes to no command is rejected: it records
ILLEGAL with that word and has no other effect (30_encoding.md R87, R88; 60_exceptions.md R171, R173). -/
def runWord (w : Word) (s : State) : Host.Outcome State Fault Refusal :=
  match decode w with
  | .command i => retire (exec i s)
  | .illegal _ => retire (.next (raiseError .illegal w s))

/-- Delivers a word on the command port as the very next of the host's moves. -/
def deliverNext (w : Word) (s : State) : State := { s with inputs := .command w :: s.inputs }

end Sys2Proof.Machine
end

