-- ==== Sys2Proof/Machine/Step.lean ====
section
/-! DEFINITION. One step of the machine. -/

namespace Sys2Proof.Machine

/-- One step takes the host's next move: a command word is run to completion (00_scope.md R12), the reset
signal resets the block (70_reset_and_hazards.md R200), and with no move waiting the block is idle and
keeps its state (60_exceptions.md R183). -/
def step (s : State) : Host.Outcome State Fault Refusal :=
  match s.inputs with
  | [] => .next s
  | .command w :: rest => runWord w { s with inputs := rest }
  | .reset :: rest => .next (assertReset { s with inputs := rest })

/-- The state with one command word, numbered as spec/opcode_table.json numbers it, placed where the next
step takes its command: at the head of the command stream (assumption 10). -/
def State.withFetchWord (s : State) (nbits w : Nat) : State :=
  deliverNext (BitVec.ofNat 32 (w % 2 ^ nbits)) s

end Sys2Proof.Machine
end

