-- ==== Sys2Proof/Machine/Assembler.lean ====
section
/-! DEFINITION. The assembler's lines, its pseudo-commands, its color names, and the host's boot sequence. -/

namespace Sys2Proof.Machine

/-- The color names an operand may use; labels only (10_state.md R24, 30_encoding.md R91). -/
inductive ColorName where
  | black | blue | green | cyan | red | magenta | brown | lightGray
  | darkGray | lightBlue | lightGreen | lightCyan | lightRed | pink | yellow | white
deriving DecidableEq, Repr

/-- The code of each name (10_state.md R24). -/
def colorCode : ColorName → Nat
  | .black => 0x0 | .blue => 0x1 | .green => 0x2 | .cyan => 0x3
  | .red => 0x4 | .magenta => 0x5 | .brown => 0x6 | .lightGray => 0x7
  | .darkGray => 0x8 | .lightBlue => 0x9 | .lightGreen => 0xA | .lightCyan => 0xB
  | .lightRed => 0xC | .pink => 0xD | .yellow => 0xE | .white => 0xF

/-- A color operand: a number or a name (30_encoding.md R91). -/
inductive ColorOperand where
  | number (n : Nat)
  | name (c : ColorName)
deriving DecidableEq, Repr

/-- One line of a command list: a command or a pseudo-command, with the operands as written (30_encoding.md
R91 to R93). A quoted character is the number of its byte (assumption 15). -/
inductive AsmLine where
  | putc (ch : Nat) (color : ColorOperand)
  | putat (ch : Nat) (color : ColorOperand) (col row : Nat)
  | setbg (color : ColorOperand)
  | setfg (color : ColorOperand)
  | scroll
  | commit
  | cursorOff
  | blinkToggle
  | puts (bytes : List Byte) (color : ColorOperand)
  | newline
deriving DecidableEq, Repr

/-- A color operand, if it fits four bits (30_encoding.md R91). -/
def asmColor (c : ColorOperand) : Option Color :=
  let n := match c with
    | .number n => n
    | .name c => colorCode c
  if n < 16 then some (BitVec.ofNat 4 n) else none

/-- A character operand, if it fits eight bits (30_encoding.md R91). -/
def asmChar (n : Nat) : Option Byte := if n < 256 then some (BitVec.ofNat 8 n) else none

/-- The commands a line stands for; nothing for a line whose operands do not fit their fields. PUTS is one
PUTC for each byte, and NEWLINE is `PUTC 0x0A, 0x0` (30_encoding.md R91 to R93). -/
def expandLine : AsmLine → Option (List Instr)
  | .putc ch color => do return [.putc (← asmChar ch) (← asmColor color)]
  | .putat ch color col row => do
    let i := Instr.putat (← asmChar ch) (← asmColor color) col row
    if i.wellFormed then return [i] else none
  | .setbg color => do return [.setbg (← asmColor color)]
  | .setfg color => do return [.setfg (← asmColor color)]
  | .scroll => some [.scroll]
  | .commit => some [.commit]
  | .cursorOff => some [.cursorOff]
  | .blinkToggle => some [.blinkToggle]
  | .puts bytes color => do
    let c ← asmColor color
    return bytes.map fun b => .putc b c
  | .newline => some [.putc Config.newline 0x0#4]

/-- The words a line assembles to. -/
def assembleLine (l : AsmLine) : Option (List Word) := (expandLine l).map fun is => is.map encode

/-- The commands the host must issue, in this order, before the first character output, with the initial
colors it chooses (70_reset_and_hazards.md R203). -/
def bootSequence (bg fg : Color) : List Instr := [.cursorOff, .blinkToggle, .setbg bg, .setfg fg]

end Sys2Proof.Machine
end

