-- ==== Sys2Proof/Machine/HostView.lean ====
section
/-! DEFINITION. What the host reads from the video region between commands. -/

namespace Sys2Proof.Machine

open Sys2Proof.Config

/-- A host read of one byte of the video region: the byte last stored there, or the byte it held before
(20_memory.md R62; assumptions 5, 11). Outside the region the platform answers, not the block (R59). -/
def hostReadByte (a : Nat) (s : State) : Option Byte :=
  if inRegion s.params a then some ((s.mem.read a).getD (priorByte a)) else none

/-- Cell `i` of the video region, as the block has stored it; nothing while a byte of it is not yet
stored (20_memory.md R51). -/
def storedCell (i : Nat) (s : State) : Option Cell :=
  match s.mem.read (charAddr s.params i), s.mem.read (attrAddr s.params i) with
  | some ch, some attr => some ⟨ch, attr⟩
  | _, _ => none

/-- Cell `i` read by a little-endian host as one 16-bit word: `at:ch` (20_memory.md R55). -/
def hostReadCellWord (i : Nat) (s : State) : Option (BitVec 16) :=
  match hostReadByte (charAddr s.params i) s, hostReadByte (attrAddr s.params i) s with
  | some ch, some attr => some (attr ++ ch)
  | _, _ => none

end Sys2Proof.Machine
end

