-- ==== Sys2Proof/Machine/RegisterPort.lean ====
section
/-! DEFINITION. The register port, which the host reads between commands. -/

namespace Sys2Proof.Machine

open Sys2Proof.Config

/-- The register port: the value of register `r`. A read has no side effect, so it is a function of the
state between two steps (10_state.md R32 to R37; assumption 11). -/
def readRegister (r : BitVec 8) (s : State) : Word :=
  if r = 0#8 then statusWord s
  else if r = 1#8 then s.cursor.setWidth 32
  else if r = 2#8 then (pack s.bg s.fg).setWidth 32
  else if r = 3#8 then s.errWord
  else 0#32

end Sys2Proof.Machine
end

