-- ==== Sys2Proof/Safety.lean ====
section
/-! DEFINITION. What counts as a sound state and a safe run, and the relations the claims are stated in. -/

namespace Sys2Proof.Machine

open Sys2Proof.Config

/-- The cursor's range: 0 to `CELLS` inclusive (10_state.md R21, R39). -/
def CursorInRange (s : State) : Prop := s.cursor.toNat ≤ cells

/-- The error record is one that errors since reset can have made: the cause is none exactly when no bit is
set, the first error's bit is set, cause 3 never occurs, and there is no word without a cause (10_state.md
R30, 60_exceptions.md R170, R172). -/
structure ErrorRecordSound (s : State) : Prop where
  none_iff : s.errCause = 0#2 ↔ s.errIllegal = false ∧ s.errRange = false
  illegal : s.errCause = 1#2 → s.errIllegal = true
  range : s.errCause = 2#2 → s.errRange = true
  notReserved : s.errCause ≠ 3#2
  word : s.errCause = 0#2 → s.errWord = 0#32

/-- The block has stored nowhere outside the video region (20_memory.md R53). -/
def StoredOnlyInRegion (s : State) : Prop :=
  ∀ a, s.mem.read a ≠ none → inRegion s.params a = true

/-- Where nothing is staged, the video region holds the mirror's cell (70_reset_and_hazards.md R204). -/
def MirrorAgreesWhereUnstaged (s : State) : Prop :=
  ∀ (i : Nat) (h : i < cells), s.back[i] = none → storedCell i s = some s.front[i]

/-- The invariant of the machine: allowed parameters, the cursor's range, a sound error record, memory in
its canonical form and only inside the region, and the mirror's agreement. -/
structure Invariant (s : State) : Prop where
  params : s.params.WellFormed
  cursor : CursorInRange s
  errors : ErrorRecordSound s
  memory : Memory.wf s.mem = true
  region : StoredOnlyInRegion s
  mirror : MirrorAgreesWhereUnstaged s

/-- The mirror and the video region agree at every cell (41_scroll_commit.md R123). -/
def MirrorAgrees (s : State) : Prop :=
  ∀ (i : Nat) (h : i < cells), storedCell i s = some s.front[i]

/-- Every slot is staged (10_state.md R41, 70_reset_and_hazards.md R210). -/
def AllStaged (s : State) : Prop := ∀ (i : Nat) (h : i < cells), s.back[i].isSome = true

/-- The next of the host's moves is the command word `w`. -/
def NextIsWord (s : State) (w : Word) : Prop := ∃ rest, s.inputs = .command w :: rest

/-- The next of the host's moves is a word of the command `i`. -/
def NextIsCommand (s : State) (i : Instr) : Prop := ∃ w, NextIsWord s w ∧ decode w = .command i

/-- The next of the host's moves is the reset signal. -/
def NextIsReset (s : State) : Prop := ∃ rest, s.inputs = .reset :: rest

/-- Which of the host's moves raise an error, and with which cause code: a word that decodes to no command
(1), and a PUTAT with a coordinate outside the grid (2) (60_exceptions.md R170). -/
def Raises (w : Word) (code : BitVec 2) : Prop :=
  (code = 1#2 ∧ ∃ why, decode w = .illegal why) ∨
  (code = 2#2 ∧ ∃ ch color col row,
    decode w = .command (.putat ch color col row) ∧ (cols ≤ col ∨ rows ≤ row))

/-- How an error with cause `code` and word `w` changes the record from that of `s` to that of `t`
(60_exceptions.md R172). -/
def RecordsError (code : BitVec 2) (w : Word) (s t : State) : Prop :=
  (s.errCause = 0#2 → t.errCause = code ∧ t.errWord = w) ∧
  (s.errCause ≠ 0#2 → t.errCause = s.errCause ∧ t.errWord = s.errWord) ∧
  t.errIllegal = (s.errIllegal || code == 1#2) ∧
  t.errRange = (s.errRange || code == 2#2)

/-- The record of `t` is that of `s`. -/
def SameErrorRecord (s t : State) : Prop :=
  t.errRange = s.errRange ∧ t.errIllegal = s.errIllegal ∧ t.errCause = s.errCause ∧
    t.errWord = s.errWord

/-- `t` differs from `s` at most in the error record, the command index and the moves still to come: no
effect on the cursor, the colors or the cell arrays, no output event, no store (60_exceptions.md R171). -/
def NothingButErrors (s t : State) : Prop :=
  t.cursor = s.cursor ∧ t.bg = s.bg ∧ t.fg = s.fg ∧ t.front = s.front ∧ t.back = s.back ∧
    t.history = s.history ∧ t.mem = s.mem ∧ t.params = s.params ∧ t.draws = s.draws

/-- Every byte of memory reads in `t` as it does in `s`. -/
def SameMemory (s t : State) : Prop := ∀ a, t.mem.read a = s.mem.read a

/-- The two stores a COMMIT makes for cell `i` when it holds `c` (41_scroll_commit.md R122). -/
def cellStoreEvents (p : Params) (i : Nat) (c : Cell) : List Event :=
  [.memWrite (p.vramBase + 2 * i) c.ch, .memWrite (p.vramBase + 2 * i + 1) c.attr]

/-- The events of a COMMIT: for `i = 0, 1, ...` in increasing order, the two stores of each staged slot
(41_scroll_commit.md R122). -/
def commitEvents (s : State) : List Event :=
  (List.finRange cells).flatMap fun i =>
    match s.back[i.val] with
    | some c => cellStoreEvents s.params i.val c
    | none => []

/-- Two states that differ only in mirror cells no command will read: those of staged slots (10_state.md
R28, R40). -/
def SameButHiddenMirror (s t : State) : Prop :=
  t = { s with front := t.front } ∧
    ∀ (i : Nat) (h : i < cells), s.back[i] = none → t.front[i] = s.front[i]

/-- Runs commands one after another, each to completion, stopping at the first that does not answer a next
state (00_scope.md R12). -/
def runCommands : List Instr → State → Host.Outcome State Fault Refusal
  | [], s => .next s
  | i :: rest, s =>
    match retire (exec i s) with
    | .next t => runCommands rest t
    | .fault f => .fault f
    | .refused r => .refused r

end Sys2Proof.Machine
end

