-- ==== Sys2Proof/Certificates/Slice0/Obligations.lean ====
section
/-! DEFINITION. The statements for the provers. Each docstring names the rule of spec/ the statement formalises, or
the sections it rests on. -/

open Sys2Proof Sys2Proof.Machine Sys2Proof.Config

/-! ## Encoding -/

/-- Words written out bit by bit from the format tables decode to the commands they stand for, and ill-formed
neighbours to none (95_test_vectors.md, Decode). -/
def Obligations.WrittenOutWordsDecode : Prop :=
  decode 0x10000241#32 = .command (.putc 0x41#8 0x2#4) ∧
  decode 0x20C4FE5A#32 = .command (.putat 0x5A#8 0xE#4 79 24) ∧
  decode 0x20FFFFFF#32 = .command (.putat 0xFF#8 0xF#4 127 31) ∧
  decode 0x30000100#32 = .command (.setbg 0x1#4) ∧
  decode 0x40000F00#32 = .command (.setfg 0xF#4) ∧
  decode 0x50000000#32 = .command .scroll ∧
  decode 0x60000000#32 = .command .commit ∧
  decode 0x70000000#32 = .command .cursorOff ∧
  decode 0x80000000#32 = .command .blinkToggle ∧
  decode 0x10001041#32 = .illegal .reservedBits ∧
  decode 0x90000000#32 = .illegal .reservedOpcode

/-- The opcode map: a word that meets a row's mask and match decodes to that row's command with the operand
fields cut where R85 cuts them, and a word that meets none is ILLEGAL (30_encoding.md R85, R86). -/
def Obligations.DecodingFollowsTheOpcodeMap : Prop :=
  ∀ w : Word,
    (w &&& 0xFFFFF000#32 = 0x10000000#32 →
      decode w = .command (.putc (w.extractLsb 7 0) (w.extractLsb 11 8))) ∧
    (w &&& 0xFF000000#32 = 0x20000000#32 →
      decode w = .command (.putat (w.extractLsb 7 0) (w.extractLsb 11 8)
        (w.extractLsb 18 12).toNat (w.extractLsb 23 19).toNat)) ∧
    (w &&& 0xFFFFF0FF#32 = 0x30000000#32 → decode w = .command (.setbg (w.extractLsb 11 8))) ∧
    (w &&& 0xFFFFF0FF#32 = 0x40000000#32 → decode w = .command (.setfg (w.extractLsb 11 8))) ∧
    (w = 0x50000000#32 → decode w = .command .scroll) ∧
    (w = 0x60000000#32 → decode w = .command .commit) ∧
    (w = 0x70000000#32 → decode w = .command .cursorOff) ∧
    (w = 0x80000000#32 → decode w = .command .blinkToggle) ∧
    (w &&& 0xFFFFF000#32 ≠ 0x10000000#32 → w &&& 0xFF000000#32 ≠ 0x20000000#32 →
      w &&& 0xFFFFF0FF#32 ≠ 0x30000000#32 → w &&& 0xFFFFF0FF#32 ≠ 0x40000000#32 →
      w ≠ 0x50000000#32 → w ≠ 0x60000000#32 → w ≠ 0x70000000#32 → w ≠ 0x80000000#32 →
      ∃ why, decode w = .illegal why)

/-- The encoded word of each command holds each field where its format's table puts it, and zero in every
reserved bit (30_encoding.md R82, R83, R84). -/
def Obligations.EncodedFieldsStandWhereTheFormatsPutThem : Prop :=
  (∀ (ch : Byte) (color : Color),
    (encode (.putc ch color)).extractLsb 31 28 = 0x1#4 ∧
    (encode (.putc ch color)).extractLsb 27 12 = 0#16 ∧
    (encode (.putc ch color)).extractLsb 11 8 = color ∧
    (encode (.putc ch color)).extractLsb 7 0 = ch) ∧
  (∀ (ch : Byte) (color : Color) (col row : Nat), col < 128 → row < 32 →
    (encode (.putat ch color col row)).extractLsb 31 28 = 0x2#4 ∧
    (encode (.putat ch color col row)).extractLsb 27 24 = 0#4 ∧
    ((encode (.putat ch color col row)).extractLsb 23 19).toNat = row ∧
    ((encode (.putat ch color col row)).extractLsb 18 12).toNat = col ∧
    (encode (.putat ch color col row)).extractLsb 11 8 = color ∧
    (encode (.putat ch color col row)).extractLsb 7 0 = ch) ∧
  (∀ color : Color,
    (encode (.setbg color)).extractLsb 31 28 = 0x3#4 ∧ (encode (.setfg color)).extractLsb 31 28 = 0x4#4 ∧
    (encode (.setbg color)).extractLsb 27 12 = 0#16 ∧ (encode (.setfg color)).extractLsb 27 12 = 0#16 ∧
    (encode (.setbg color)).extractLsb 11 8 = color ∧ (encode (.setfg color)).extractLsb 11 8 = color ∧
    (encode (.setbg color)).extractLsb 7 0 = 0#8 ∧ (encode (.setfg color)).extractLsb 7 0 = 0#8) ∧
  encode .scroll = 0x50000000#32 ∧ encode .commit = 0x60000000#32 ∧
  encode .cursorOff = 0x70000000#32 ∧ encode .blinkToggle = 0x80000000#32

/-- Decoding the word of any well-formed command gives that command, with every operand at every value its
field holds (30_encoding.md R82 to R86). -/
def Obligations.DecodeOfEncode : Prop :=
  ∀ i : Instr, i.wellFormed = true → decode (encode i) = .command i

/-- A word that decodes to a command is the one word of that command (30_encoding.md R87). -/
def Obligations.EncodeOfDecode : Prop :=
  ∀ (w : Word) (i : Instr), decode w = .command i → encode i = w ∧ i.wellFormed = true

/-! ## The step, and errors -/

/-- A word that decodes to a command is run by `exec` on the state without that move, and the command index
then advances; a stop of `exec` is the step's own (00_scope.md R12). -/
def Obligations.StepRunsTheDecodedCommand : Prop :=
  ∀ (s : State) (w : Word) (rest : List Input) (i : Instr),
    s.inputs = .command w :: rest → decode w = .command i →
    step s = (match exec i { s with inputs := rest } with
      | .next t => .next { t with ci := t.ci + 1 }
      | .fault f => .fault f
      | .refused r => .refused r)

/-- With no move waiting, the block is idle and keeps its state (60_exceptions.md R183; assumption 10). -/
def Obligations.IdleKeepsTheState : Prop :=
  ∀ s : State, s.inputs = [] → step s = .next s

/-- A word with an opcode 0x1 to 0x8 and a one in a bit its format reserves is rejected with cause ILLEGAL and
has no other effect, and a command has one spelling (30_encoding.md R87). -/
def Obligations.ReservedBitsAreRejected : Prop :=
  (∀ (s : State) (w : Word) (rest : List Input), s.inputs = .command w :: rest →
    ((w.extractLsb 31 28 = 0x1#4 ∧ w &&& 0x0FFFF000#32 ≠ 0#32) ∨
     (w.extractLsb 31 28 = 0x2#4 ∧ w &&& 0x0F000000#32 ≠ 0#32) ∨
     ((w.extractLsb 31 28 = 0x3#4 ∨ w.extractLsb 31 28 = 0x4#4) ∧ w &&& 0x0FFFF0FF#32 ≠ 0#32) ∨
     ((w.extractLsb 31 28 = 0x5#4 ∨ w.extractLsb 31 28 = 0x6#4 ∨ w.extractLsb 31 28 = 0x7#4 ∨
       w.extractLsb 31 28 = 0x8#4) ∧ w &&& 0x0FFFFFFF#32 ≠ 0#32)) →
    (∃ why, decode w = .illegal why) ∧
    ∃ t, step s = .next t ∧ t.inputs = rest ∧ t.ci = s.ci + 1 ∧
      NothingButErrors s t ∧ RecordsError 1#2 w s t) ∧
  (∀ (w w' : Word) (i : Instr), decode w = .command i → decode w' = .command i → w = w')

/-- A word with a reserved opcode is rejected in the same way, the all-zero word among them; and there is no NOP:
every command has some effect from some state (30_encoding.md R88). -/
def Obligations.ReservedOpcodesAreRejected : Prop :=
  (∀ (s : State) (w : Word) (rest : List Input), s.inputs = .command w :: rest →
    (w.extractLsb 31 28 = 0x0#4 ∨ 0x9 ≤ (w.extractLsb 31 28).toNat) →
    (∃ why, decode w = .illegal why) ∧
    ∃ t, step s = .next t ∧ t.inputs = rest ∧ t.ci = s.ci + 1 ∧
      NothingButErrors s t ∧ RecordsError 1#2 w s t) ∧
  (∃ why, decode 0x00000000#32 = .illegal why) ∧
  (∀ i : Instr, ∃ s t, exec i s = .next t ∧ t ≠ s)

/-- A command that raises an error has no effect on the cursor, the colors or the cell arrays and emits
nothing: it records the error and advances the index (60_exceptions.md R171). -/
def Obligations.RejectionHasNoOtherEffect : Prop :=
  ∀ (s : State) (w : Word) (rest : List Input) (code : BitVec 2),
    s.inputs = .command w :: rest → Raises w code →
    ∃ t, step s = .next t ∧ t.inputs = rest ∧ t.ci = s.ci + 1 ∧
      NothingButErrors s t ∧ RecordsError code w s t

/-- Every step but a reset either raises an error, and records it as R172 writes out, or leaves the record as it
is: the first error keeps its cause and word, and nothing but reset clears a field (60_exceptions.md R172). -/
def Obligations.ErrorRecordIsStickyUntilReset : Prop :=
  ∀ s t : State, step s = .next t → ¬ NextIsReset s →
    (∃ w code, NextIsWord s w ∧ Raises w code ∧ RecordsError code w s t) ∨
    ((¬ ∃ w code, NextIsWord s w ∧ Raises w code) ∧ SameErrorRecord s t)

/-- A word raises at most one error, a step takes one word, and an ILLEGAL word is never range-checked: 0x2FFFFFFF,
whose row and column are out of range too, raises ILLEGAL, not RANGE (60_exceptions.md R173). -/
def Obligations.IllegalHasPriorityOverRange : Prop :=
  (∀ (w : Word) (k k' : BitVec 2), Raises w k → Raises w k' → k = k') ∧
  (∀ (s : State) (w : Word) (rest : List Input) (why : Illegal),
    s.inputs = .command w :: rest → decode w = .illegal why →
    ∃ t, step s = .next t ∧ t.inputs = rest ∧ RecordsError 1#2 w s t ∧ t.errRange = s.errRange) ∧
  (cols ≤ fieldCol 0x2FFFFFFF#32 ∧ rows ≤ fieldRow 0x2FFFFFFF#32 ∧
    ∀ (s : State) (rest : List Input), s.inputs = .command 0x2FFFFFFF#32 :: rest →
      ∃ t, step s = .next t ∧ t.inputs = rest ∧ RecordsError 1#2 0x2FFFFFFF#32 s t ∧
        t.errRange = s.errRange)

/-- Recorded errors do not stop the block: whatever the error record holds, a step answers what it answers with
any other record, but for the record itself (70_reset_and_hazards.md R212). -/
def Obligations.ErrorRecordIsNotRead : Prop :=
  ∀ (s : State) (er ei : Bool) (ec : BitVec 2) (ew : Word),
    (∀ t, step s = .next t →
      ∃ u, step { s with errRange := er, errIllegal := ei, errCause := ec, errWord := ew } = .next u ∧
        u = { t with errRange := u.errRange, errIllegal := u.errIllegal, errCause := u.errCause,
                     errWord := u.errWord }) ∧
    (∀ f, step s = .fault f →
      step { s with errRange := er, errIllegal := ei, errCause := ec, errWord := ew } = .fault f)

/-- The command index counts the commands: each one, executed or rejected, advances it by one, reset sets it to
0, and nothing else moves it (10_state.md R27). -/
def Obligations.CommandIndexCountsCommands : Prop :=
  State.reset.ci = 0 ∧
  ∀ s t : State, step s = .next t →
    (∀ w, NextIsWord s w → t.ci = s.ci + 1) ∧
    (NextIsReset s → t.ci = 0) ∧
    (s.inputs = [] → t.ci = s.ci)

/-! ## Reset -/

/-- The reset signal sets every piece of block state to its reset value, for every value of the parameters, and
it is the only operation that clears the error record (70_reset_and_hazards.md R200). `FRONT` may take any
value, so nothing is said of it. -/
def Obligations.ResetSetsTheBlockState : Prop :=
  (∀ (s : State) (rest : List Input), s.inputs = .reset :: rest →
    ∃ t, step s = .next t ∧ t.inputs = rest ∧ t.params = s.params ∧
      t.cursor = s.params.resetCursor ∧ t.fg = s.params.resetFg ∧ t.bg = s.params.resetBg ∧
      (∀ (i : Nat) (h : i < cells),
        t.back[i] = some ⟨s.params.blankChar, pack s.params.resetBg s.params.blankFg⟩) ∧
      t.errRange = false ∧ t.errIllegal = false ∧ t.errCause = 0#2 ∧ t.errWord = 0#32 ∧ t.ci = 0) ∧
  (∀ s t : State, step s = .next t →
    ((s.errCause ≠ 0#2 ∧ (t.errCause ≠ s.errCause ∨ t.errWord ≠ s.errWord)) ∨
     (s.errRange = true ∧ t.errRange = false) ∨ (s.errIllegal = true ∧ t.errIllegal = false)) →
    NextIsReset s)

/-- Reset emits no event and leaves the video region as it was, and so does every move until a COMMIT
(70_reset_and_hazards.md R201). -/
def Obligations.ResetTouchesNothingOutside : Prop :=
  (∀ s t : State, step s = .next t → NextIsReset s → t.history = s.history ∧ SameMemory s t) ∧
  (∀ s t : State, step s = .next t → ¬ NextIsCommand s .commit → SameMemory s t)

/-- The state after the first reset, under the default parameters (10_state.md R41). The default values, the empty
history and the empty memory are the model's (assumptions 2, 5, 10). -/
def Obligations.StateAfterReset : Prop :=
  State.reset.cursor = 0#11 ∧ State.reset.fg = 0xF#4 ∧ State.reset.bg = 0x0#4 ∧
  (∀ (i : Nat) (h : i < cells), State.reset.back[i] = some ⟨0x20#8, 0x07#8⟩) ∧
  State.reset.errRange = false ∧ State.reset.errIllegal = false ∧
  State.reset.errCause = 0#2 ∧ State.reset.errWord = 0x00000000#32 ∧ State.reset.ci = 0 ∧
  State.reset.history = [] ∧ (∀ a, State.reset.mem.read a = none)

/-! ## PUTC and PUTAT -/

/-- PUTC of a character with the cursor on the grid: the cell is staged at the cursor with the current background
and the word's color, and the cursor advances by one; nothing else changes (40_output.md R101, R102, R104). -/
def Obligations.PutcStagesAndAdvances : Prop :=
  ∀ (s : State) (ch : Byte) (color : Color) (h : s.cursor.toNat < cells), ch ≠ 0x0A#8 →
    exec (.putc ch color) s = .next
      { s with
        back := s.back.set s.cursor.toNat (some ⟨ch, (s.bg.setWidth 8 <<< 4) ||| color.setWidth 8⟩) h
        cursor := BitVec.ofNat 11 (s.cursor.toNat + 1) }

/-- PUTC of a newline above the last row: the cursor moves to the start of the next row, no cell is staged, and
the color has no effect (40_output.md R103, R104). -/
def Obligations.PutcNewlineMovesToTheNextRow : Prop :=
  ∀ (s : State) (color : Color), s.cursor.toNat < lastRowStart →
    exec (.putc 0x0A#8 color) s = .next
      { s with cursor := BitVec.ofNat 11 (s.cursor.toNat - s.cursor.toNat % cols + cols) }

/-- PUTC of a newline in the last row scrolls once, exactly as SCROLL does (40_output.md R103, R104). -/
def Obligations.PutcNewlineInTheLastRowScrollsOnce : Prop :=
  ∀ (s : State) (color : Color), lastRowStart ≤ s.cursor.toNat → s.cursor.toNat ≠ cells →
    ∃ t, exec .scroll s = .next t ∧ exec (.putc 0x0A#8 color) s = .next t

/-- PUTC with a pending scroll scrolls first: a character is then staged at 1920 and the cursor ends at 1921; a
newline scrolls a second time and the cursor ends at 1920 (40_output.md R104). -/
def Obligations.PutcTakesThePendingScrollFirst : Prop :=
  ∀ (s : State) (ch : Byte) (color : Color), s.cursor.toNat = cells →
    ∃ u t, exec .scroll s = .next u ∧ exec (.putc ch color) s = .next t ∧
      exec (.putc ch color) u = .next t ∧
      (ch ≠ 0x0A#8 → t.cursor.toNat = 1921 ∧
        t.back[1920]? = some (some ⟨ch, (s.bg.setWidth 8 <<< 4) ||| color.setWidth 8⟩)) ∧
      (ch = 0x0A#8 → exec .scroll u = .next t ∧ t.cursor.toNat = 1920)

/-- PUTC completes from every cursor the spec allows, and leaves a cursor the spec allows (40_output.md R104,
R106; 10_state.md R39). -/
def Obligations.PutcCompletes : Prop :=
  ∀ (s : State) (ch : Byte) (color : Color), s.cursor.toNat ≤ cells →
    ∃ t, exec (.putc ch color) s = .next t ∧ t.cursor.toNat ≤ cells

/-- PUTAT with coordinates in the grid stages the cell at `row * COLS + col`, whatever its character, and changes
nothing else (40_output.md R105, R107). -/
def Obligations.PutatStagesAtItsOffset : Prop :=
  ∀ (s : State) (ch : Byte) (color : Color) (col row : Nat), col < cols → row < rows →
    exec (.putat ch color col row) s = .next
      { s with
        back := s.back.setIfInBounds (row * cols + col)
          (some ⟨ch, (s.bg.setWidth 8 <<< 4) ||| color.setWidth 8⟩) }

/-- PUTAT with a coordinate outside the grid stages nothing and records RANGE; it is not clamped and does not wrap
into another cell (40_output.md R105, 60_exceptions.md R171, R172). That the recorded word is the command's encoding
is the model's choice (assumption 8, DEDUCED): for `col < 128` and `row < 32` it is the one word that decodes to the
command (EncodeOfDecode); for larger coordinates, which no word decodes to, it is the word with the coordinates cut
to their fields, and that part says nothing about the hardware. -/
def Obligations.PutatOutsideTheGridRecordsRange : Prop :=
  ∀ (s : State) (ch : Byte) (color : Color) (col row : Nat), (cols ≤ col ∨ rows ≤ row) →
    ∃ t, exec (.putat ch color col row) s = .next t ∧ NothingButErrors s t ∧
      RecordsError 2#2 (encode (.putat ch color col row)) s t ∧ t.ci = s.ci ∧ t.inputs = s.inputs

/-- The formula and the fields of a packed attribute (40_output.md R100, 10_state.md R25). -/
def Obligations.PackPutsBackgroundOverForeground : Prop :=
  ∀ b f : Color, pack b f = (b.setWidth 8 <<< 4) ||| f.setWidth 8 ∧
    (pack b f).extractLsb 3 0 = f ∧ (pack b f).extractLsb 7 4 = b

/-- Offsets are row-major: in the grid they lie below `CELLS`, distinct coordinates have distinct offsets, and an
offset gives back its column and row (40_output.md R107). -/
def Obligations.OffsetsAreRowMajor : Prop :=
  (∀ c r : Nat, c < cols → r < rows → offset c r = r * cols + c ∧ offset c r < cells) ∧
  (∀ c r c' r' : Nat, c < cols → r < rows → c' < cols → r' < rows →
    offset c r = offset c' r' → c = c' ∧ r = r') ∧
  (∀ i : Nat, i < cells → columnOf i = i % cols ∧ rowOf i = i / cols ∧
    columnOf i < cols ∧ rowOf i < rows ∧ offset (columnOf i) (rowOf i) = i)

/-- The cursor procedures do exact arithmetic in `[0, CELLS]`, so the 11-bit register never wraps (40_output.md
R106). -/
def Obligations.CursorArithmeticNeverWraps : Prop :=
  ∀ s : State,
    (s.cursor.toNat < cells → (advanceOne s).cursor.toNat = s.cursor.toNat + 1 ∧
      (advanceOne s).cursor.toNat ≤ cells) ∧
    (s.cursor.toNat < lastRowStart →
      (newlineAdvance s).cursor.toNat = s.cursor.toNat - s.cursor.toNat % cols + cols ∧
      (newlineAdvance s).cursor.toNat ≤ lastRowStart) ∧
    (lastRowStart ≤ s.cursor.toNat → newlineAdvance s = scroll s) ∧
    (scroll s).cursor.toNat = lastRowStart

/-- Characters other than newline, as many as fit before the end of the grid, are staged one after another at
the cursor and never scroll (90_conflicts.md C6, 95_test_vectors.md L1-2; 30_encoding.md R92). -/
def Obligations.CharactersThatFitNeverScroll : Prop :=
  ∀ (chars : List Byte) (color : Color) (s : State),
    (∀ ch ∈ chars, ch ≠ 0x0A#8) → s.cursor.toNat + chars.length ≤ cells →
    ∃ t, runCommands (chars.map fun ch => .putc ch color) s = .next t ∧
      t.cursor.toNat = s.cursor.toNat + chars.length ∧ t.ci = s.ci + chars.length ∧
      (∀ (k : Nat) (h : k < chars.length),
        t.back[s.cursor.toNat + k]? = some (some ⟨chars[k], pack s.bg color⟩)) ∧
      (∀ (i : Nat) (h : i < cells), (i < s.cursor.toNat ∨ s.cursor.toNat + chars.length ≤ i) →
        t.back[i] = s.back[i]) ∧
      t.front = s.front ∧ t.bg = s.bg ∧ t.history = s.history ∧ SameMemory s t

/-! ## SCROLL and COMMIT -/

/-- The scroll laws: every row shows the row below it, the bottom row is blank with the current background, and
the cursor is at its start; nothing else changes (41_scroll_commit.md R124). -/
def Obligations.ScrollMovesRowsUp : Prop :=
  ∀ s : State, ∃ t, exec .scroll s = .next t ∧
    (∀ (i : Nat) (h : i + cols < cells),
      t.back[i] = some (match s.back[i + cols] with
        | some c => c
        | none => s.front[i + cols])) ∧
    (∀ (i : Nat) (h : i < cells), cells - cols ≤ i →
      t.back[i] = some ⟨s.params.blankChar, pack s.bg s.params.blankFg⟩) ∧
    t.cursor.toNat = cells - cols ∧
    t = { s with back := t.back, cursor := t.cursor }

/-- COMMIT emits the two stores of every staged slot, in increasing offset and the character byte first, copies
the staged cells to `FRONT`, and unstages every slot; the memory's new contents are the subject of the next
statement, and nothing else changes (41_scroll_commit.md R122). -/
def Obligations.CommitEmitsStagedCells : Prop :=
  ∀ s : State, s.params.vramBase + 2 * cells - 1 < 2 ^ s.params.paddrBits →
    ∃ t, exec .commit s = .next t ∧
      t.history = s.history ++ commitEvents s ∧
      (∀ (i : Nat) (h : i < cells), t.back[i] = none) ∧
      (∀ (i : Nat) (h : i < cells),
        t.front[i] = (match s.back[i] with
          | some c => c
          | none => s.front[i])) ∧
      t = { s with history := t.history, back := t.back, front := t.front, mem := t.mem }

/-- After a COMMIT each staged cell's two bytes are in the region, and every other byte of memory reads as before:
bytes that are not written keep their value (20_memory.md R54). -/
def Obligations.UnwrittenBytesKeepTheirValue : Prop :=
  ∀ s t : State, Memory.wf s.mem = true → exec .commit s = .next t →
    (∀ (i : Nat) (h : i < cells) (c : Cell), s.back[i] = some c →
      t.mem.read (s.params.vramBase + 2 * i) = some c.ch ∧
      t.mem.read (s.params.vramBase + 2 * i + 1) = some c.attr) ∧
    (∀ a : Nat,
      (∀ (i : Nat) (h : i < cells), s.back[i].isSome = true →
        a ≠ s.params.vramBase + 2 * i ∧ a ≠ s.params.vramBase + 2 * i + 1) →
      t.mem.read a = s.mem.read a)

/-- The commit laws: staged cells are in the region and in the mirror, unstaged ones are as they were, a second
COMMIT emits and changes nothing, and region and mirror agree at every cell (41_scroll_commit.md R123). -/
def Obligations.CommitLaws : Prop :=
  ∀ s : State, Invariant s →
    ∃ t, exec .commit s = .next t ∧
      (∀ (i : Nat) (h : i < cells), s.back[i] ≠ none →
        storedCell i t = some t.front[i] ∧ t.back[i] = none) ∧
      (∀ (i : Nat) (h : i < cells), s.back[i] = none →
        storedCell i t = storedCell i s ∧ t.front[i] = s.front[i]) ∧
      exec .commit t = .next t ∧
      MirrorAgrees t

/-- The two places a command stops, both in states the spec excludes: PUTC of a character with the cursor off the
grid (against 10_state.md R21), and COMMIT under parameters that break the precondition of 00_scope.md R6. Both
faults are the model's choice (assumptions 6, 7). -/
def Obligations.WhereCommandsStop : Prop :=
  (∀ (s : State) (ch : Byte) (color : Color), cells < s.cursor.toNat → ch ≠ 0x0A#8 →
    exec (.putc ch color) s = .fault .cursorOffGrid) ∧
  (∀ s : State, 2 ^ s.params.paddrBits ≤ s.params.vramBase + 2 * cells - 1 →
    exec .commit s = .fault .regionBeyondBus)

/-- The only stores are COMMIT's, each to a byte of a cell of the region, so none falls outside it (20_memory.md
R53). -/
def Obligations.OnlyCommitStoresAndOnlyInTheRegion : Prop :=
  ∀ s t : State, step s = .next t →
    ∃ es, t.history = s.history ++ es ∧
      ∀ a v, Event.memWrite a v ∈ es →
        NextIsCommand s .commit ∧
        (∃ i < cells, a = s.params.vramBase + 2 * i ∨ a = s.params.vramBase + 2 * i + 1) ∧
        s.params.vramBase ≤ a ∧ a < s.params.vramBase + 2 * cells

/-- The block never reads the video region: whatever memory holds, a step answers the same but for memory
(20_memory.md R52). -/
def Obligations.TheRegionIsNeverRead : Prop :=
  ∀ (s : State) (m : Memory),
    (∀ t, step s = .next t → ∃ u, step { s with mem := m } = .next u ∧ u = { t with mem := u.mem }) ∧
    (∀ f, step s = .fault f → step { s with mem := m } = .fault f)

/-- The first COMMIT after reset stores all 2000 cells: reset stages every slot, every move but a COMMIT keeps
them staged, and a COMMIT with every slot staged emits 4000 stores (70_reset_and_hazards.md R202). -/
def Obligations.FirstCommitAfterResetStoresEveryCell : Prop :=
  (∀ s t : State, step s = .next t → NextIsReset s → AllStaged t) ∧
  (∀ s t : State, AllStaged s → step s = .next t → ¬ NextIsCommand s .commit → AllStaged t) ∧
  (∀ s : State, AllStaged s → s.params.RegionFits →
    ∃ t, exec .commit s = .next t ∧ t.history.length = s.history.length + 2 * cells)

/-- From the end of the first COMMIT after reset, mirror and region agree at every cell, and every move but a
reset keeps that; before it every slot is staged and nothing reads the mirror (70_reset_and_hazards.md R204). -/
def Obligations.MirrorAgreement : Prop :=
  (∀ s t : State, Invariant s → step s = .next t → NextIsCommand s .commit → MirrorAgrees t) ∧
  (∀ s t : State, Invariant s → MirrorAgrees s → step s = .next t → ¬ NextIsReset s →
    MirrorAgrees t) ∧
  (∀ (s t : State) (f : Vector Cell cells), AllStaged s → step s = .next t →
    ∃ u, step { s with front := f } = .next u ∧ u = { t with front := u.front })

/-- The mirror's reset value is unobservable: two states that differ only in mirror cells under staged slots step
to two such states (10_state.md R40, R41). -/
def Obligations.HiddenMirrorCellsStayUnobservable : Prop :=
  ∀ s s' : State, SameButHiddenMirror s s' →
    (∀ t, step s = .next t → ∃ t', step s' = .next t' ∧ SameButHiddenMirror t t') ∧
    (∀ f, step s = .fault f → step s' = .fault f)

/-- SCROLL, a PUTC that scrolls, and SETBG leave every slot staged (70_reset_and_hazards.md R210). -/
def Obligations.WholeGridCommandsStageEverySlot : Prop :=
  (∀ s : State, ∃ t, exec .scroll s = .next t ∧ AllStaged t) ∧
  (∀ (s : State) (color : Color), ∃ t, exec (.setbg color) s = .next t ∧ AllStaged t) ∧
  (∀ (s : State) (ch : Byte) (color : Color), s.cursor.toNat = cells →
    ∃ t, exec (.putc ch color) s = .next t ∧ AllStaged t) ∧
  (∀ (s : State) (color : Color), lastRowStart ≤ s.cursor.toNat →
    ∃ t, exec (.putc 0x0A#8 color) s = .next t ∧ AllStaged t)

/-! ## Colors -/

/-- SETBG sets the background and stages every slot: the staged cell, or the mirror's, with its character and
foreground nibble kept and the new background nibble; nothing else changes (42_color.md R140). -/
def Obligations.SetbgRepaintsEveryCell : Prop :=
  ∀ (s : State) (b : Color), ∃ t, exec (.setbg b) s = .next t ∧ t.bg = b ∧
    (∀ (i : Nat) (h : i < cells), ∃ src c,
      src = (match s.back[i] with
        | some staged => staged
        | none => s.front[i]) ∧
      t.back[i] = some c ∧ c.ch = src.ch ∧
      c.attr.extractLsb 3 0 = src.attr.extractLsb 3 0 ∧ c.attr.extractLsb 7 4 = b) ∧
    t = { s with bg := t.bg, back := t.back }

/-- SETFG sets the foreground and repaints nothing (42_color.md R141). -/
def Obligations.SetfgSetsOnlyTheForeground : Prop :=
  ∀ (s : State) (color : Color), exec (.setfg color) s = .next { s with fg := color }

/-- No rendering command reads `FG`: whatever it holds, a step that does not set it answers the same but for it
(10_state.md R23, 90_conflicts.md C5). -/
def Obligations.ForegroundRegisterIsNotRead : Prop :=
  ∀ (s : State) (c : Color), ¬ NextIsReset s → (¬ ∃ color, NextIsCommand s (.setfg color)) →
    (∀ t, step s = .next t → step { s with fg := c } = .next { t with fg := c }) ∧
    (∀ f, step s = .fault f → step { s with fg := c } = .fault f)

/-! ## Display-controller ports -/

/-- CURSOR_OFF emits its two port writes, in order, and changes nothing else (43_display_ports.md R150, R151). -/
def Obligations.CursorOffWritesTwoPorts : Prop :=
  ∀ s : State, exec .cursorOff s = .next
    { s with history := s.history ++
        [.portWrite s.params.crtcIndex s.params.crtcCursorStart,
         .portWrite s.params.crtcData s.params.cursorDisableValue] }

/-- BLINK_TOGGLE emits its four port events, in order: whatever two bytes the controller answers, the last write is
the second of them with the blink bit inverted. No block state changes; the count of draws is the model's own
(43_display_ports.md R150, R152; assumption 3). -/
def Obligations.BlinkToggleInvertsTheBlinkBit : Prop :=
  (∀ s : State, ∃ d0 m : Byte, exec .blinkToggle s = .next (blinkSequence d0 m s)) ∧
  (∀ (s : State) (d0 m : Byte), blinkSequence d0 m s =
    { s with
      history := s.history ++
        [.portRead s.params.inputStatus1 d0,
         .portWrite s.params.attrIndex s.params.attrModeSelect,
         .portRead s.params.attrDataRead m,
         .portWrite s.params.attrIndex (m ^^^ s.params.blinkBit)]
      draws := s.draws + 2 })

/-- The block accesses only the ports of 00_scope.md R9, each only in its own command (20_memory.md R50, R57). -/
def Obligations.PortsAreAccessedOnlyByPortCommands : Prop :=
  ∀ s t : State, step s = .next t →
    ∃ es, t.history = s.history ++ es ∧
      (∀ p v, Event.portWrite p v ∈ es →
        (NextIsCommand s .cursorOff ∧ (p = s.params.crtcIndex ∨ p = s.params.crtcData)) ∨
        (NextIsCommand s .blinkToggle ∧ p = s.params.attrIndex)) ∧
      (∀ p v, Event.portRead p v ∈ es → NextIsCommand s .blinkToggle ∧
        (p = s.params.inputStatus1 ∨ p = s.params.attrDataRead))

/-! ## What the host reads -/

/-- Register 0 (10_state.md R33). -/
def Obligations.StatusRegisterLayout : Prop :=
  (∀ s : State,
    (readRegister 0#8 s).getLsbD 0 = s.errRange ∧
    (readRegister 0#8 s).getLsbD 1 = s.errIllegal ∧
    ((readRegister 0#8 s).getLsbD 2 = true ↔ s.cursor.toNat = cells) ∧
    (readRegister 0#8 s).getLsbD 3 = false ∧
    (readRegister 0#8 s).extractLsb 5 4 = s.errCause ∧
    (readRegister 0#8 s).extractLsb 31 6 = 0#26) ∧
  readRegister 0#8 State.reset = 0x00000000#32 ∧
  (∀ s : State, s.params.resetCursor = 0#11 ∨ s.params.resetCursor = 1920#11 →
    readRegister 0#8 (assertReset s) = 0x00000000#32)

/-- Registers 1, 2 and 3, and the registers that are unassigned (10_state.md R34, R35, R36, R37). -/
def Obligations.RegisterPortLayout : Prop :=
  (∀ s : State,
    (readRegister 1#8 s).extractLsb 10 0 = s.cursor ∧ (readRegister 1#8 s).extractLsb 31 11 = 0#21 ∧
    (readRegister 2#8 s).extractLsb 3 0 = s.fg ∧ (readRegister 2#8 s).extractLsb 7 4 = s.bg ∧
    (readRegister 2#8 s).extractLsb 7 0 = pack s.bg s.fg ∧ (readRegister 2#8 s).extractLsb 31 8 = 0#24 ∧
    readRegister 3#8 s = s.errWord) ∧
  (∀ (s : State) (r : BitVec 8), 4 ≤ r.toNat → readRegister r s = 0x00000000#32) ∧
  (∀ s : State,
    (readRegister 1#8 (assertReset s)).extractLsb 10 0 = s.params.resetCursor ∧
    (readRegister 2#8 (assertReset s)).extractLsb 7 0 = pack s.params.resetBg s.params.resetFg ∧
    readRegister 3#8 (assertReset s) = 0x00000000#32) ∧
  readRegister 1#8 State.reset = 0x00000000#32 ∧ readRegister 2#8 State.reset = 0x0000000F#32 ∧
  readRegister 3#8 State.reset = 0x00000000#32

/-- A host read of the region returns the byte last stored there: after a COMMIT the staged cells' bytes, and at
every other byte, and after every other step, what it returned before (20_memory.md R54, R62). What it returns at
a byte not yet stored is a free value (assumption 5). -/
def Obligations.HostReadsReturnTheLastStore : Prop :=
  (∀ s t : State, Memory.wf s.mem = true → exec .commit s = .next t →
    ∀ (i : Nat) (h : i < cells),
      (∀ c, s.back[i] = some c →
        hostReadByte (s.params.vramBase + 2 * i) t = some c.ch ∧
        hostReadByte (s.params.vramBase + 2 * i + 1) t = some c.attr ∧
        hostReadCellWord i t = some (c.attr ++ c.ch)) ∧
      (s.back[i] = none →
        hostReadByte (s.params.vramBase + 2 * i) t = hostReadByte (s.params.vramBase + 2 * i) s ∧
        hostReadByte (s.params.vramBase + 2 * i + 1) t =
          hostReadByte (s.params.vramBase + 2 * i + 1) s)) ∧
  (∀ (s t : State) (a : Nat), step s = .next t → ¬ NextIsCommand s .commit →
    hostReadByte a t = hostReadByte a s)

/-! ## Frames and whole-machine rules -/

/-- What the staging commands leave alone: PUTC, PUTAT, SCROLL and SETBG emit nothing, store nothing, and change
neither the mirror nor `FG`; PUTC, PUTAT and SCROLL leave `BG`, PUTAT and SETBG leave the cursor, and all but a
rejected PUTAT leave the error record (40_output.md R104, R105; 41_scroll_commit.md R121; 42_color.md R140;
20_memory.md R63). -/
def Obligations.FrameOfStagingCommands : Prop :=
  ∀ s t : State, ∀ i : Instr, exec i s = .next t →
    ((∃ ch color, i = .putc ch color) ∨ (∃ ch color col row, i = .putat ch color col row) ∨
      i = .scroll ∨ (∃ color, i = .setbg color)) →
    t.fg = s.fg ∧ t.front = s.front ∧ t.history = s.history ∧ SameMemory s t ∧
    t.ci = s.ci ∧ t.inputs = s.inputs ∧ t.params = s.params ∧ t.draws = s.draws ∧
    ((∀ color, i ≠ .setbg color) → t.bg = s.bg) ∧
    (((∃ ch color col row, i = .putat ch color col row) ∨ (∃ color, i = .setbg color)) →
      t.cursor = s.cursor) ∧
    ((∀ ch color col row, i = .putat ch color col row → col < cols ∧ row < rows) →
      SameErrorRecord s t) ∧
    (∀ ch color col row, i = .putat ch color col row →
      ∀ (k : Nat) (h : k < cells), k ≠ row * cols + col → t.back[k] = s.back[k]) ∧
    (∀ ch color, i = .putc ch color → ch ≠ 0x0A#8 → s.cursor.toNat < cells →
      ∀ (k : Nat) (h : k < cells), k ≠ s.cursor.toNat → t.back[k] = s.back[k]) ∧
    (∀ color, i = .putc 0x0A#8 color → s.cursor.toNat < lastRowStart → t.back = s.back)

/-- What SETFG, CURSOR_OFF and BLINK_TOGGLE leave alone: everything but `FG`, and everything but the history and
the model's count of draws (42_color.md R141, 43_display_ports.md R151, R152). -/
def Obligations.FrameOfForegroundAndPortCommands : Prop :=
  ∀ s t : State, ∀ i : Instr, exec i s = .next t →
    ((∃ color, i = .setfg color) ∨ i = .cursorOff ∨ i = .blinkToggle) →
    t.cursor = s.cursor ∧ t.bg = s.bg ∧ t.front = s.front ∧ t.back = s.back ∧
    SameErrorRecord s t ∧ SameMemory s t ∧ t.ci = s.ci ∧ t.inputs = s.inputs ∧ t.params = s.params ∧
    ((∀ color, i ≠ .setfg color) → t.fg = s.fg) ∧
    (i ≠ .blinkToggle → t.draws = s.draws) ∧
    ((∃ color, i = .setfg color) → t.history = s.history)

/-- What COMMIT leaves alone: every register, and every byte of memory but the two bytes of each staged cell, at
the addresses the commit itself computes (41_scroll_commit.md R122, 20_memory.md R51, R54). -/
def Obligations.FrameOfCommit : Prop :=
  ∀ s t : State, Memory.wf s.mem = true → exec .commit s = .next t →
    t.cursor = s.cursor ∧ t.bg = s.bg ∧ t.fg = s.fg ∧ SameErrorRecord s t ∧ t.ci = s.ci ∧
    t.inputs = s.inputs ∧ t.params = s.params ∧ t.draws = s.draws ∧
    (∀ a, (∀ (i : Nat) (h : i < cells), s.back[i].isSome = true →
      a ≠ charAddr s.params i ∧ a ≠ attrAddr s.params i) → t.mem.read a = s.mem.read a)

/-- Which commands change each piece of state, reset apart: the cursor only PUTC and SCROLL, `BG` only SETBG, `FG`
only SETFG, `FRONT` only COMMIT, `BACK` no port command and no SETFG; no step changes a parameter (10_state.md R21,
R22, R23, R28, R29). -/
def Obligations.EachRegisterHasItsWriters : Prop :=
  ∀ s t : State, step s = .next t →
    t.params = s.params ∧
    (¬ NextIsReset s →
      (t.cursor ≠ s.cursor →
        (∃ ch color, NextIsCommand s (.putc ch color)) ∨ NextIsCommand s .scroll) ∧
      (t.bg ≠ s.bg → ∃ color, NextIsCommand s (.setbg color)) ∧
      (t.fg ≠ s.fg → ∃ color, NextIsCommand s (.setfg color)) ∧
      (t.front ≠ s.front → NextIsCommand s .commit) ∧
      (t.back ≠ s.back →
        (∃ ch color, NextIsCommand s (.putc ch color)) ∨
        (∃ ch color col row, NextIsCommand s (.putat ch color col row)) ∨
        NextIsCommand s .scroll ∨ (∃ color, NextIsCommand s (.setbg color)) ∨
        NextIsCommand s .commit))

/-- The pending-scroll cursor arises only from a PUTC that staged a character at the last cell, and neither PUTC
nor SCROLL leaves a pending scroll standing (10_state.md R39; 40_output.md R104). -/
def Obligations.PendingScrollComesFromTheLastCell : Prop :=
  ∀ s t : State, Invariant s → step s = .next t → t.cursor.toNat = cells →
    (s.cursor.toNat = cells ∧ ¬ NextIsReset s ∧ ¬ NextIsCommand s .scroll ∧
      ∀ ch color, ¬ NextIsCommand s (.putc ch color)) ∨
    (s.cursor.toNat = cells - 1 ∧ ∃ ch color, ch ≠ 0x0A#8 ∧ NextIsCommand s (.putc ch color) ∧
      t.back[cells - 1]? = some (some ⟨ch, pack s.bg color⟩))

/-- The state after reset meets the invariant (10_state.md R41; the defaults are the model's, assumption 2). -/
def Obligations.ResetMeetsTheInvariant : Prop := Invariant State.reset

/-- Every step keeps the invariant, from every state that meets it: the cursor's range, a sound error record, a
canonical memory that lists only region bytes, and a mirror that agrees with the region wherever nothing is
staged (10_state.md R39; 20_memory.md R53; 60_exceptions.md R172; 70_reset_and_hazards.md R204). -/
def Obligations.EveryStepKeepsTheInvariant : Prop :=
  ∀ s t : State, Invariant s → step s = .next t → Invariant t

/-- No step stops from a state that meets the invariant: every command runs to completion (00_scope.md R12). -/
def Obligations.NoStepStopsFromASoundState : Prop :=
  ∀ s : State, Invariant s → ∃ t, step s = .next t

/-! ## Sequences of commands -/

/-- The boot sequence runs to completion from every state, with the colors the host chooses: six port events in
order, both colors set, every cell staged on the new background, and the cursor, the error record and the video
region left alone (70_reset_and_hazards.md R203, 43_display_ports.md R151, R152). -/
def Obligations.BootSequenceCompletes : Prop :=
  ∀ (s : State) (bg fg : Color), ∃ (t : State) (d0 m : Byte),
    runCommands (bootSequence bg fg) s = .next t ∧
    t.history = s.history ++
      [.portWrite s.params.crtcIndex s.params.crtcCursorStart,
       .portWrite s.params.crtcData s.params.cursorDisableValue,
       .portRead s.params.inputStatus1 d0,
       .portWrite s.params.attrIndex s.params.attrModeSelect,
       .portRead s.params.attrDataRead m,
       .portWrite s.params.attrIndex (m ^^^ s.params.blinkBit)] ∧
    t.bg = bg ∧ t.fg = fg ∧ t.ci = s.ci + 4 ∧ AllStaged t ∧
    (∀ (i : Nat) (h : i < cells) (c : Cell), t.back[i] = some c → c.attr.extractLsb 7 4 = bg) ∧
    t.cursor = s.cursor ∧ SameErrorRecord s t ∧ SameMemory s t

/-- A PUTAT under a pending scroll stages into the unscrolled grid, and the scroll of the next PUTC moves its cell
up a row; a PUTAT in row 0 is scrolled out (70_reset_and_hazards.md R207, R211). -/
def Obligations.PutatUnderPendingScrollMovesUp : Prop :=
  ∀ (s : State) (ch ch' : Byte) (color color' : Color) (col row : Nat),
    s.cursor.toNat = cells → col < cols → row < rows → ch' ≠ 0x0A#8 →
    ∃ t u, exec (.putat ch color col row) s = .next t ∧ t.cursor.toNat = cells ∧
      t.back[row * cols + col]? = some (some ⟨ch, pack s.bg color⟩) ∧
      exec (.putc ch' color') t = .next u ∧
      (1 ≤ row → u.back[(row - 1) * cols + col]? = some (some ⟨ch, pack s.bg color⟩)) ∧
      (row = 0 → ∃ u', exec (.putc ch' color') s = .next u' ∧ u = u')

/-! ## The assembler -/

/-- PUTS stands for one PUTC for each byte, in order, and for nothing when the string is empty; NEWLINE stands for
`PUTC 0x0A, 0x0`, the word 0x1000000A, and a newline's color has no effect (30_encoding.md R92, R93). -/
def Obligations.PseudoCommandsExpandToPutc : Prop :=
  (∀ (bytes : List Byte) (color : ColorOperand) (c : Color), asmColor color = some c →
    ∃ words, assembleLine (.puts bytes color) = some words ∧ words.length = bytes.length ∧
      ∀ (k : Nat) (h : k < bytes.length),
        ∃ w, words[k]? = some w ∧ decode w = .command (.putc bytes[k] c)) ∧
  expandLine .newline = some [.putc 0x0A#8 0x0#4] ∧ assembleLine .newline = some [0x1000000A#32] ∧
  (∀ (s : State) (color color' : Color), exec (.putc 0x0A#8 color) s = exec (.putc 0x0A#8 color') s)

/-- The assembler refuses operands that do not fit their field, and assembles positions beyond the grid that do
(30_encoding.md R91). -/
def Obligations.AssemblerChecksOperandWidths : Prop :=
  ∀ ch color col row : Nat,
    ((ch < 256 ∧ color < 16 ∧ col < 128 ∧ row < 32) →
      expandLine (.putat ch (.number color) col row) =
        some [.putat (BitVec.ofNat 8 ch) (BitVec.ofNat 4 color) col row]) ∧
    (¬ (ch < 256 ∧ color < 16 ∧ col < 128 ∧ row < 32) →
      assembleLine (.putat ch (.number color) col row) = none)
end

