-- ==== Sys2Proof/Laws/Decode.lean ====
section
/-! SUPPORT. The bits of an encoded word, what meeting a mask means, and the decoder's inversion lemma. -/

namespace Sys2Proof

/-- The bits of a format P word (30_encoding.md R82). -/
theorem getLsbD_formatP (op : BitVec 4) (row : BitVec 5) (col : BitVec 7) (color : Color) (ch : Byte)
    (i : Nat) : (formatP op row col color ch).getLsbD i =
      if i < 8 then ch.getLsbD i
      else if i < 12 then color.getLsbD (i - 8)
      else if i < 19 then col.getLsbD (i - 12)
      else if i < 24 then row.getLsbD (i - 19)
      else if i < 28 then false
      else op.getLsbD (i - 28) := by
  simp only [formatP, BitVec.getLsbD_append]
  by_cases h8 : i < 8
  · simp [h8]
  by_cases h12 : i < 12
  · simp [h8, h12, show i - 8 < 4 by omega]
  by_cases h19 : i < 19
  · simp [h8, h12, h19, show ¬ i - 8 < 4 by omega, show i - 8 - 4 = i - 12 by omega,
      show i - 12 < 7 by omega]
  by_cases h24 : i < 24
  · simp [h8, h12, h19, h24, show ¬ i - 8 < 4 by omega, show ¬ i - 8 - 4 < 7 by omega,
      show i - 8 - 4 - 7 = i - 19 by omega, show i - 19 < 5 by omega]
  by_cases h28 : i < 28
  · simp [h8, h12, h19, h24, h28, show ¬ i - 8 < 4 by omega, show ¬ i - 8 - 4 < 7 by omega,
      show ¬ i - 8 - 4 - 7 < 5 by omega, show i - 8 - 4 - 7 - 5 < 4 by omega]
  · simp [h8, h12, h19, h24, h28, show ¬ i - 8 < 4 by omega, show ¬ i - 8 - 4 < 7 by omega,
      show ¬ i - 8 - 4 - 7 < 5 by omega, show ¬ i - 8 - 4 - 7 - 5 < 4 by omega,
      show i - 8 - 4 - 7 - 5 - 4 = i - 28 by omega]

/-- The bits of a format K word (30_encoding.md R83). -/
theorem getLsbD_formatK (op : BitVec 4) (color : Color) (i : Nat) :
    (formatK op color).getLsbD i =
      if i < 8 then false
      else if i < 12 then color.getLsbD (i - 8)
      else if i < 28 then false
      else op.getLsbD (i - 28) := by
  simp only [formatK, BitVec.getLsbD_append]
  by_cases h8 : i < 8
  · simp [h8]
  by_cases h12 : i < 12
  · simp [h8, h12, show i - 8 < 4 by omega]
  by_cases h28 : i < 28
  · simp [h8, h12, h28, show ¬ i - 8 < 4 by omega, show i - 8 - 4 < 16 by omega]
  · simp [h8, h12, h28, show ¬ i - 8 < 4 by omega, show ¬ i - 8 - 4 < 16 by omega,
      show i - 8 - 4 - 16 = i - 28 by omega]

/-- A format K word is the format P word with zero row, column and character. -/
theorem formatK_eq_formatP (op : BitVec 4) (color : Color) :
    formatK op color = formatP op 0#5 0#7 color 0#8 := by
  apply BitVec.eq_of_getLsbD_eq
  intro i _
  rw [getLsbD_formatK, getLsbD_formatP]
  simp only [BitVec.getLsbD_zero]
  split <;> [rfl; (split <;> [rfl; (split <;> [(split <;> [rfl; (split <;> rfl)]); skip])])]
  rw [if_neg (by omega), if_neg (by omega)]

theorem fieldOp_formatP (op : BitVec 4) (row : BitVec 5) (col : BitVec 7) (color : Color) (ch : Byte) :
    fieldOp (formatP op row col color ch) = op := by
  apply BitVec.eq_of_getLsbD_eq
  intro i hi
  rw [fieldOp, BitVec.getLsbD_extractLsb', getLsbD_formatP]
  simp (disch := omega) only [if_neg, hi, decide_true, Bool.true_and, Nat.add_sub_cancel_left]

theorem fieldCh_formatP (op : BitVec 4) (row : BitVec 5) (col : BitVec 7) (color : Color) (ch : Byte) :
    fieldCh (formatP op row col color ch) = ch := by
  apply BitVec.eq_of_getLsbD_eq
  intro i hi
  rw [fieldCh, BitVec.getLsbD_extractLsb', getLsbD_formatP]
  simp (disch := omega) only [if_pos, if_true, hi, decide_true, Bool.true_and, Nat.zero_add]

theorem fieldColor_formatP (op : BitVec 4) (row : BitVec 5) (col : BitVec 7) (color : Color)
    (ch : Byte) : fieldColor (formatP op row col color ch) = color := by
  apply BitVec.eq_of_getLsbD_eq
  intro i hi
  rw [fieldColor, BitVec.getLsbD_extractLsb', getLsbD_formatP]
  simp (disch := omega) only [if_neg, if_pos, hi, decide_true, Bool.true_and, Nat.add_sub_cancel_left]

theorem fieldCol_formatP (op : BitVec 4) (row : BitVec 5) (col : BitVec 7) (color : Color) (ch : Byte) :
    fieldCol (formatP op row col color ch) = col.toNat := by
  rw [fieldCol]
  congr 1
  apply BitVec.eq_of_getLsbD_eq
  intro i hi
  rw [BitVec.getLsbD_extractLsb', getLsbD_formatP]
  simp (disch := omega) only [if_neg, if_pos, hi, decide_true, Bool.true_and, Nat.add_sub_cancel_left]

theorem fieldRow_formatP (op : BitVec 4) (row : BitVec 5) (col : BitVec 7) (color : Color) (ch : Byte) :
    fieldRow (formatP op row col color ch) = row.toNat := by
  rw [fieldRow]
  congr 1
  apply BitVec.eq_of_getLsbD_eq
  intro i hi
  rw [BitVec.getLsbD_extractLsb', getLsbD_formatP]
  simp (disch := omega) only [if_neg, if_pos, hi, decide_true, Bool.true_and, Nat.add_sub_cancel_left]

/-- Every word is the format P word of its fields when its four common reserved bits are zero (30_encoding.md
R81, R85). -/
theorem formatP_fields (w : Word) (h : w.extractLsb' 24 4 = 0#4) :
    formatP (fieldOp w) (w.extractLsb' 19 5) (w.extractLsb' 12 7) (fieldColor w) (fieldCh w) = w := by
  apply BitVec.eq_of_getLsbD_eq
  intro i hi
  rw [getLsbD_formatP]
  simp only [fieldOp, fieldColor, fieldCh, BitVec.getLsbD_extractLsb']
  have hz : ∀ j, j < 4 → w.getLsbD (24 + j) = false := fun j hj => by
    have := congrArg (fun x => x.getLsbD j) h
    simpa [BitVec.getLsbD_extractLsb', hj] using this
  split
  · simp [*]
  split
  · simp [show i - 8 < 4 by omega, show 8 + (i - 8) = i by omega]
  split
  · simp [show i - 12 < 7 by omega, show 12 + (i - 12) = i by omega]
  split
  · simp [show i - 19 < 5 by omega, show 19 + (i - 19) = i by omega]
  split
  · have := hz (i - 24) (by omega)
    rw [show 24 + (i - 24) = i by omega] at this
    exact this.symm
  · simp [show i - 28 < 4 by omega, show 28 + (i - 28) = i by omega]

/-- Meeting the mask of a table row fixes, bit by bit, the word's bits under the mask. -/
theorem and_eq_iff (w mask pattern : Word) :
    w &&& mask = pattern ↔ ∀ i < 32, (w.getLsbD i && mask.getLsbD i) = pattern.getLsbD i := by
  constructor
  · intro h i _
    rw [← h, BitVec.getLsbD_and]
  · intro h
    apply BitVec.eq_of_getLsbD_eq
    intro i hi
    rw [BitVec.getLsbD_and]
    exact h i hi

/-- The decoder's inversion lemma: a command was decoded by one of the eight rows. -/
theorem decode_command_cases {w : Word} {i : Instr} (h : decode w = .command i) :
    (w &&& 0xFFFFF000#32 = 0x10000000#32 ∧ i = .putc (fieldCh w) (fieldColor w)) ∨
    (w &&& 0xFF000000#32 = 0x20000000#32 ∧
      i = .putat (fieldCh w) (fieldColor w) (fieldCol w) (fieldRow w)) ∨
    (w &&& 0xFFFFF0FF#32 = 0x30000000#32 ∧ i = .setbg (fieldColor w)) ∨
    (w &&& 0xFFFFF0FF#32 = 0x40000000#32 ∧ i = .setfg (fieldColor w)) ∨
    (w &&& 0xFFFFFFFF#32 = 0x50000000#32 ∧ i = .scroll) ∨
    (w &&& 0xFFFFFFFF#32 = 0x60000000#32 ∧ i = .commit) ∨
    (w &&& 0xFFFFFFFF#32 = 0x70000000#32 ∧ i = .cursorOff) ∨
    (w &&& 0xFFFFFFFF#32 = 0x80000000#32 ∧ i = .blinkToggle) := by
  rw [decode] at h
  split at h
  · rename_i r hr
    have hmem := List.mem_of_find?_eq_some hr
    have hhit : r.hits w = true := by simpa using List.find?_some hr
    rw [OpcodeRow.hits, beq_iff_eq] at hhit
    have hi : i = r.build w := (Decoded.command.inj h).symm
    subst hi
    simp only [opcodeTable, List.mem_cons, List.not_mem_nil, or_false] at hmem
    rcases hmem with rfl | rfl | rfl | rfl | rfl | rfl | rfl | rfl <;> simp_all
  · cases h

/-- A word that meets a row's mask has that row's opcode: every mask covers bits 31:28. -/
theorem fieldOp_of_hits {r : OpcodeRow} {w : Word} (hr : r ∈ opcodeTable) (h : r.hits w = true) :
    fieldOp w = fieldOp r.pattern := by
  rw [OpcodeRow.hits, beq_iff_eq] at h
  have hm : ∀ r ∈ opcodeTable, r.mask.extractLsb' 28 4 = 15#4 := by decide
  rw [← h, fieldOp, fieldOp]
  apply BitVec.eq_of_getLsbD_eq
  intro i hi
  have hb : r.mask.getLsbD (28 + i) = true := by
    have hone : ∀ i < 4, (15#4).getLsbD i = true := by decide
    have := congrArg (fun x => x.getLsbD i) (hm r hr)
    simp only [BitVec.getLsbD_extractLsb', hi, decide_true, Bool.true_and] at this
    rw [this, hone i hi]
  simp [BitVec.getLsbD_extractLsb', BitVec.getLsbD_and, hb]

/-- A word that meets a row's mask decodes to that row's command, since no other row has its opcode. -/
theorem decode_of_hits {r : OpcodeRow} {w : Word} (hr : r ∈ opcodeTable) (h : r.hits w = true) :
    decode w = .command (r.build w) := by
  rw [decode]
  cases hf : opcodeTable.find? (fun r => r.hits w) with
  | none => exact absurd h (by simpa using List.find?_eq_none.1 hf r hr)
  | some r' =>
    have hr' := List.mem_of_find?_eq_some hf
    have hop : fieldOp r.pattern = fieldOp r'.pattern := by
      rw [← fieldOp_of_hits hr h, ← fieldOp_of_hits hr' (by simpa using List.find?_some hf)]
    have : r' = r := by
      simp only [opcodeTable, List.mem_cons, List.not_mem_nil, or_false] at hr hr'
      rcases hr with rfl | rfl | rfl | rfl | rfl | rfl | rfl | rfl <;>
        rcases hr' with rfl | rfl | rfl | rfl | rfl | rfl | rfl | rfl <;>
        first | rfl | exact absurd hop (by decide)
    rw [this]

/-- A word that meets no row's mask is ILLEGAL. -/
theorem decode_of_no_hit {w : Word} (h : ∀ r ∈ opcodeTable, r.hits w = false) :
    ∃ why, decode w = .illegal why := by
  rw [decode]
  rw [List.find?_eq_none.2 (by simpa using h)]
  exact ⟨_, rfl⟩

/-- The rows of the opcode map do not overlap: no two of them fix the same opcode (30_encoding.md R86). -/
theorem opcodeTable_disjoint :
    opcodeTable.Pairwise fun r r' =>
      (r.mask &&& r'.mask) &&& r.pattern ≠ (r.mask &&& r'.mask) &&& r'.pattern := by
  decide

end Sys2Proof
end

