-- ==== Sys2Proof/Laws/Operands.lean ====
section
/-! SUPPORT. The laws of attribute packing, of offsets and of the value a slot shows. -/

namespace Sys2Proof.Machine

open Sys2Proof.Config

/-- The bits of a packed attribute: the foreground below the background (10_state.md R25). -/
theorem getLsbD_pack (b f : Color) (i : Nat) :
    (pack b f).getLsbD i = if i < 4 then f.getLsbD i else b.getLsbD (i - 4) := by
  have hf : 4 ≤ i → f.getLsbD i = false := BitVec.getLsbD_of_ge _ _
  have hb : 8 ≤ i → b.getLsbD (i - 4) = false := fun h => BitVec.getLsbD_of_ge _ _ (by omega)
  simp only [pack, BitVec.getLsbD_or, BitVec.getLsbD_shiftLeft, BitVec.getLsbD_setWidth]
  by_cases h : i < 4
  · simp [h, show i < 8 by omega]
  · by_cases h8 : i < 8
    · simp [h, h8, hf (by omega), show i - 4 < 8 by omega]
    · simp [h, h8, hb (by omega)]

@[simp] theorem attrFg_pack (b f : Color) : attrFg (pack b f) = f := by
  apply BitVec.eq_of_getLsbD_eq
  intro i hi
  simp only [attrFg, BitVec.getLsbD_extractLsb', getLsbD_pack, Nat.zero_add, hi, decide_true,
    Bool.true_and, if_true]

@[simp] theorem attrBg_pack (b f : Color) : attrBg (pack b f) = b := by
  apply BitVec.eq_of_getLsbD_eq
  intro i hi
  simp only [attrBg, BitVec.getLsbD_extractLsb', getLsbD_pack, hi, decide_true, Bool.true_and]
  rw [if_neg (by omega), Nat.add_sub_cancel_left]

@[simp] theorem attrFg_repaint (b : Color) (c : Cell) : attrFg (repaint b c).attr = attrFg c.attr := by
  simp [repaint]

@[simp] theorem attrBg_repaint (b : Color) (c : Cell) : attrBg (repaint b c).attr = b := by
  simp [repaint]

@[simp] theorem repaint_ch (b : Color) (c : Cell) : (repaint b c).ch = c.ch := rfl

@[simp] theorem shown_some (c mirror : Cell) : shown (some c) mirror = c := rfl

@[simp] theorem shown_none (mirror : Cell) : shown none mirror = mirror := rfl

theorem cells_eq : cells = 2000 := rfl

theorem cols_eq : cols = 80 := rfl

theorem rows_eq : rows = 25 := rfl

theorem lastRowStart_eq : lastRowStart = 1920 := rfl

/-- Coordinates are recovered from their offset (40_output.md R107). -/
theorem columnOf_offset {c r : Nat} (h : InGrid c r) : columnOf (offset c r) = c := by
  have := h.1
  simp only [columnOf, offset, cols_eq] at *
  omega

theorem rowOf_offset {c r : Nat} (h : InGrid c r) : rowOf (offset c r) = r := by
  have := h.1
  simp only [rowOf, offset, cols_eq] at *
  omega

end Sys2Proof.Machine
end

