-- ==== Sys2Proof/Laws/Flags.lean ====
section
/-! SUPPORT. The bits of the registers the host reads. -/

namespace Sys2Proof.Machine

open Sys2Proof.Config

/-- The bits of `STATUS` (10_state.md R33). -/
theorem getLsbD_statusWord (s : State) (i : Nat) :
    (statusWord s).getLsbD i =
      if i = 0 then s.errRange
      else if i = 1 then s.errIllegal
      else if i = 2 then scrollPending s
      else if i = 3 then false
      else if i < 6 then s.errCause.getLsbD (i - 4)
      else false := by
  simp only [statusWord, BitVec.getLsbD_append, BitVec.getLsbD_ofBool]
  by_cases h0 : i = 0
  · simp [h0]
  by_cases h1 : i = 1
  · simp [h1]
  by_cases h2 : i = 2
  · simp [h2]
  by_cases h3 : i = 3
  · simp [h3]
  by_cases h6 : i < 6
  · simp [h0, h1, h2, h3, h6, show ¬ i < 1 by omega, show ¬ i - 1 < 1 by omega,
      show ¬ i - 1 - 1 < 1 by omega, show ¬ i - 1 - 1 - 1 < 1 by omega,
      show i - 1 - 1 - 1 - 1 = i - 4 by omega, show i - 4 < 2 by omega]
  · simp [h0, h1, h2, h3, h6, show ¬ i < 1 by omega, show ¬ i - 1 < 1 by omega,
      show ¬ i - 1 - 1 < 1 by omega, show ¬ i - 1 - 1 - 1 < 1 by omega,
      show ¬ i - 1 - 1 - 1 - 1 < 2 by omega]

@[simp] theorem readRegister_status (s : State) : readRegister 0#8 s = statusWord s := rfl

@[simp] theorem readRegister_cursor (s : State) : readRegister 1#8 s = s.cursor.setWidth 32 := rfl

@[simp] theorem readRegister_color (s : State) :
    readRegister 2#8 s = (pack s.bg s.fg).setWidth 32 := rfl

@[simp] theorem readRegister_errWord (s : State) : readRegister 3#8 s = s.errWord := rfl

/-- The unassigned registers read as zero (10_state.md R37). -/
theorem readRegister_unassigned (s : State) (r : BitVec 8) (h : 4 ≤ r.toNat) :
    readRegister r s = 0#32 := by
  have hr : ∀ k, k < 4 → r ≠ BitVec.ofNat 8 k := fun k hk he => by
    rw [he, BitVec.toNat_ofNat] at h
    omega
  rw [readRegister, if_neg (hr 0 (by omega)), if_neg (hr 1 (by omega)), if_neg (hr 2 (by omega)),
    if_neg (hr 3 (by omega))]

end Sys2Proof.Machine
end

