-- ==== Sys2Proof/Laws/Grid.lean ====
section
/-! SUPPORT. What each whole-grid operation holds at an index. -/

namespace Sys2Proof.Machine

@[simp] theorem Grid.getElem_tabulate {α : Type} (n : Nat) (f : Nat → α) (i : Nat) (h : i < n) :
    (Grid.tabulate n f)[i] = f i := by
  simp [Grid.tabulate]

@[simp] theorem Grid.getElem_zipWith {α β γ : Type} {n : Nat} (f : α → β → γ) (v : Vector α n)
    (w : Vector β n) (i : Nat) (h : i < n) : (Grid.zipWith f v w)[i] = f v[i] w[i] := by
  simp [Grid.zipWith]

theorem Grid.getElem_shiftBy_of_lt {α : Type} {n : Nat} (k : Nat) (x : α) (v : Vector α n) (i : Nat)
    (h : i + k < n) : (Grid.shiftBy k x v)[i] = v[i + k] := by
  have hi : i < v.toList.length - k := by simp; omega
  simp only [Grid.shiftBy, Vector.getElem_mk, List.getElem_toArray]
  rw [List.getElem_append_left (by simpa using hi)]
  simp [Nat.add_comm]

theorem Grid.getElem_shiftBy_of_ge {α : Type} {n : Nat} (k : Nat) (x : α) (v : Vector α n) (i : Nat)
    (h : i < n) (hk : n ≤ i + k) : (Grid.shiftBy k x v)[i] = x := by
  simp only [Grid.shiftBy, Vector.getElem_mk, List.getElem_toArray]
  rw [List.getElem_append_right (by simp; omega)]
  simp

theorem Grid.getElem_shiftBy {α : Type} {n : Nat} (k : Nat) (x : α) (v : Vector α n) (i : Nat)
    (h : i < n) : (Grid.shiftBy k x v)[i] = if h' : i + k < n then v[i + k] else x := by
  split
  · exact Grid.getElem_shiftBy_of_lt k x v i ‹_›
  · exact Grid.getElem_shiftBy_of_ge k x v i h (by omega)

end Sys2Proof.Machine
end

