-- ==== Sys2Proof/Laws/Memory.lean ====
section
/-! SUPPORT. The laws of memory: what a read gives after a store, that every store keeps the canonical form, and
that one pass over rising stores is one store after another. -/

namespace Sys2Proof.Machine

@[simp] theorem Memory.read_nil (a : Nat) : Memory.read [] a = none := rfl

theorem Memory.read_cons (x : Nat) (v : Byte) (m : Memory) (a : Nat) :
    Memory.read ((x, v) :: m) a = if x = a then some v else Memory.read m a := rfl

/-- Every address of `m` is above `lo`, and they rise: the list form of `Memory.risesAbove`. -/
theorem Memory.risesAbove_cons (lo x : Nat) (v : Byte) (m : Memory) :
    Memory.risesAbove lo ((x, v) :: m) = true ↔ lo < x ∧ Memory.risesAbove x m = true := by
  simp [Memory.risesAbove]

theorem Memory.risesAbove_mono {lo lo' : Nat} {m : Memory} (h : Memory.risesAbove lo m = true)
    (hl : lo' ≤ lo) : Memory.risesAbove lo' m = true := by
  cases m with
  | nil => rfl
  | cons c m =>
    obtain ⟨x, v⟩ := c
    rw [Memory.risesAbove_cons] at *
    exact ⟨by omega, h.2⟩

theorem Memory.wf_of_risesAbove {lo : Nat} {m : Memory} (h : Memory.risesAbove lo m = true) :
    Memory.wf m = true := by
  cases m with
  | nil => rfl
  | cons c m => exact ((Memory.risesAbove_cons ..).1 h).2

/-- Nothing is listed at or below the bound of a rising memory. -/
theorem Memory.read_of_risesAbove {lo : Nat} {m : Memory} (h : Memory.risesAbove lo m = true) {a : Nat}
    (ha : a ≤ lo) : Memory.read m a = none := by
  induction m generalizing lo with
  | nil => rfl
  | cons c m ih =>
    obtain ⟨x, v⟩ := c
    rw [Memory.risesAbove_cons] at h
    rw [Memory.read, if_neg (by omega)]
    exact ih h.2 (by omega)

/-- Splicing keeps the canonical form when the continuation does and gives addresses above `a`. -/
theorem Memory.splice_risesAbove {a : Nat} {b : Byte} {k : Memory → Memory}
    (hk : ∀ m, Memory.risesAbove a m = true → Memory.risesAbove a (k m) = true)
    {lo : Nat} {m : Memory} (ha : lo < a) (h : Memory.risesAbove lo m = true) :
    Memory.risesAbove lo (Memory.splice a b k m) = true := by
  induction m generalizing lo with
  | nil =>
    rw [Memory.splice, Memory.risesAbove_cons]
    exact ⟨ha, hk [] rfl⟩
  | cons c m ih =>
    obtain ⟨x, v⟩ := c
    rw [Memory.risesAbove_cons] at h
    rw [Memory.splice]
    split
    · rw [Memory.risesAbove_cons]
      exact ⟨h.1, ih ‹_› h.2⟩
    · rw [Memory.risesAbove_cons]
      refine ⟨ha, hk _ ?_⟩
      split
      · exact Memory.risesAbove_mono h.2 (by omega)
      · rw [Memory.risesAbove_cons]
        exact ⟨by omega, h.2⟩

theorem Memory.splice_wf {a : Nat} {b : Byte} {k : Memory → Memory}
    (hk : ∀ m, Memory.risesAbove a m = true → Memory.risesAbove a (k m) = true)
    {m : Memory} (h : Memory.wf m = true) : Memory.wf (Memory.splice a b k m) = true := by
  cases m with
  | nil => exact hk [] rfl
  | cons c m =>
    obtain ⟨x, v⟩ := c
    rw [Memory.wf] at h
    rw [Memory.splice]
    split
    · exact Memory.splice_risesAbove hk ‹_› h
    · refine hk _ ?_
      split
      · exact Memory.risesAbove_mono h (by omega)
      · rw [Memory.risesAbove_cons]
        exact ⟨by omega, h⟩

/-- A read after splicing: the new byte at `a`, what was there below `a`, and above `a` what the
continuation leaves of the memory above `a`. -/
theorem Memory.read_splice {a : Nat} {b : Byte} {k : Memory → Memory}
    {f : Nat → Option Byte → Option Byte}
    (hk : ∀ m, Memory.risesAbove a m = true → Memory.risesAbove a (k m) = true)
    (hr : ∀ m c, Memory.risesAbove a m = true → a < c → Memory.read (k m) c = f c (Memory.read m c))
    {m : Memory} (h : Memory.wf m = true) (c : Nat) :
    Memory.read (Memory.splice a b k m) c =
      if c = a then some b else if c < a then Memory.read m c else f c (Memory.read m c) := by
  induction m with
  | nil =>
    rw [Memory.splice, Memory.read_cons]
    by_cases hc : c = a
    · rw [if_pos hc.symm, if_pos hc]
    · rw [if_neg (Ne.symm hc), if_neg hc]
      by_cases hca : c < a
      · rw [if_pos hca]
        exact Memory.read_of_risesAbove (hk [] rfl) (Nat.le_of_lt hca)
      · rw [if_neg hca]
        exact hr [] c rfl (by omega)
  | cons e m ih =>
    obtain ⟨x, v⟩ := e
    rw [Memory.wf] at h
    rw [Memory.splice]
    by_cases hxa : x < a
    · rw [if_pos hxa, Memory.read_cons, Memory.read_cons, ih (Memory.wf_of_risesAbove h)]
      by_cases hxc : x = c
      · rw [if_pos hxc, if_pos hxc, if_neg (by omega), if_pos (by omega)]
      · rw [if_neg hxc, if_neg hxc]
    · have hm : Memory.risesAbove a (if x = a then m else (x, v) :: m) = true := by
        split
        · exact Memory.risesAbove_mono h (by omega)
        · rw [Memory.risesAbove_cons]; exact ⟨by omega, h⟩
      rw [if_neg hxa, Memory.read_cons]
      by_cases hc : c = a
      · rw [if_pos hc.symm, if_pos hc]
      · rw [if_neg (Ne.symm hc), if_neg hc]
        by_cases hca : c < a
        · rw [if_pos hca, Memory.read_of_risesAbove (hk _ hm) (Nat.le_of_lt hca), Memory.read_cons,
            if_neg (by omega), Memory.read_of_risesAbove h (show c ≤ x by omega)]
        · rw [if_neg hca, hr _ c hm (by omega)]
          by_cases hx : x = a
          · rw [if_pos hx, Memory.read_cons, if_neg (by omega)]
          · rw [if_neg hx]

/-- A store keeps the canonical form. -/
theorem Memory.write_wf {m : Memory} (h : Memory.wf m = true) (a : Nat) (b : Byte) :
    Memory.wf (Memory.write m a b) = true :=
  Memory.splice_wf (fun _ h => h) h

/-- A read after a store: the byte stored there, and every other address as before (20_memory.md R54). -/
theorem Memory.read_write {m : Memory} (h : Memory.wf m = true) (a : Nat) (b : Byte) (c : Nat) :
    Memory.read (Memory.write m a b) c = if c = a then some b else Memory.read m c := by
  have := Memory.read_splice (a := a) (b := b) (k := id) (f := fun _ x => x) (fun _ h => h)
    (fun _ _ _ _ => rfl) h c
  simpa [Memory.write] using this

/-- The addresses of a list of stores rise strictly: the canonical form, on the list of stores. -/
abbrev Memory.Rising (stores : List Host.Cell) : Prop := Memory.wf stores = true

theorem Memory.storeRising_cons (c : Host.Cell) (ss : List Host.Cell) (m : Memory) :
    Memory.storeRising (c :: ss) m = Memory.splice c.1 c.2 (Memory.storeRising ss) m := rfl

theorem Memory.storeRising_risesAbove {lo : Nat} {ss : List Host.Cell} {m : Memory}
    (hs : Memory.risesAbove lo ss = true) (h : Memory.risesAbove lo m = true) :
    Memory.risesAbove lo (Memory.storeRising ss m) = true := by
  induction ss generalizing lo m with
  | nil => exact h
  | cons c ss ih =>
    obtain ⟨a, b⟩ := c
    rw [Memory.risesAbove_cons] at hs
    rw [Memory.storeRising_cons]
    exact Memory.splice_risesAbove (fun m hm => ih hs.2 hm) hs.1 h

/-- The stores of a commit keep the canonical form. -/
theorem Memory.storeRising_wf {ss : List Host.Cell} {m : Memory} (hs : Memory.Rising ss)
    (h : Memory.wf m = true) : Memory.wf (Memory.storeRising ss m) = true := by
  cases ss with
  | nil => exact h
  | cons c ss =>
    rw [Memory.storeRising_cons]
    exact Memory.splice_wf (fun m hm => Memory.storeRising_risesAbove hs hm) h

/-- A read after the stores of a commit: the byte stored there if there is one, else as before. -/
theorem Memory.read_storeRising {ss : List Host.Cell} {m : Memory} (hs : Memory.Rising ss)
    (h : Memory.wf m = true) (c : Nat) :
    Memory.read (Memory.storeRising ss m) c = (Memory.read ss c).or (Memory.read m c) := by
  induction ss generalizing m c with
  | nil => rfl
  | cons e ss ih =>
    obtain ⟨a, b⟩ := e
    have hs' : Memory.risesAbove a ss = true := hs
    rw [Memory.storeRising_cons,
      Memory.read_splice (f := fun c x => (Memory.read ss c).or x)
        (fun m hm => Memory.storeRising_risesAbove hs' hm)
        (fun m c hm _ => ih (Memory.wf_of_risesAbove hs') (Memory.wf_of_risesAbove hm) c) h,
      Memory.read]
    by_cases hc : c = a
    · simp [hc]
    · rw [if_neg hc, if_neg (Ne.symm hc)]
      split
      · rw [Memory.read_of_risesAbove hs' (by omega)]; rfl
      · rfl

/-- Equal reads make equal canonical memories. -/
theorem Memory.risesAbove_ext {lo : Nat} {m m' : Memory} (h : Memory.risesAbove lo m = true)
    (h' : Memory.risesAbove lo m' = true) (heq : ∀ a, Memory.read m a = Memory.read m' a) : m = m' := by
  induction m generalizing lo m' with
  | nil =>
    cases m' with
    | nil => rfl
    | cons c m' => simpa [Memory.read] using heq c.1
  | cons c m ih =>
    obtain ⟨x, v⟩ := c
    cases m' with
    | nil => simpa [Memory.read] using heq x
    | cons c' m' =>
      obtain ⟨y, w⟩ := c'
      rw [Memory.risesAbove_cons] at h h'
      have hxy : x = y := by
        rcases Nat.lt_trichotomy x y with hlt | he | hgt
        · have := heq x
          rw [Memory.read, if_pos rfl, Memory.read, if_neg (by omega),
            Memory.read_of_risesAbove h'.2 (by omega)] at this
          cases this
        · exact he
        · have := heq y
          rw [Memory.read, if_neg (by omega), Memory.read_of_risesAbove h.2 (by omega), Memory.read,
            if_pos rfl] at this
          cases this
      subst hxy
      have hvw : v = w := by simpa [Memory.read] using heq x
      subst hvw
      congr 1
      refine ih h.2 h'.2 fun a => ?_
      by_cases ha : x = a
      · subst ha
        rw [Memory.read_of_risesAbove h.2 (by omega), Memory.read_of_risesAbove h'.2 (by omega)]
      · simpa [Memory.read, ha] using heq a

theorem Memory.wf_ext {m m' : Memory} (h : Memory.wf m = true) (h' : Memory.wf m' = true)
    (heq : ∀ a, Memory.read m a = Memory.read m' a) : m = m' := by
  have lift : ∀ {m : Memory}, Memory.wf m = true →
      Memory.risesAbove 0 (m.map fun c => (c.1 + 1, c.2)) = true := by
    intro m h
    have up : ∀ (lo : Nat) (m : Memory), Memory.risesAbove lo m = true →
        Memory.risesAbove (lo + 1) (m.map fun c => (c.1 + 1, c.2)) = true := by
      intro lo m
      induction m generalizing lo with
      | nil => intro _; rfl
      | cons c m ih =>
        obtain ⟨x, v⟩ := c
        intro h
        rw [Memory.risesAbove_cons] at h
        rw [List.map_cons, Memory.risesAbove_cons]
        exact ⟨by omega, ih x h.2⟩
    cases m with
    | nil => rfl
    | cons c m =>
      obtain ⟨x, v⟩ := c
      rw [List.map_cons, Memory.risesAbove_cons]
      exact ⟨by omega, up x m h⟩
  have readUp : ∀ (m : Memory) (a : Nat),
      Memory.read (m.map fun c => (c.1 + 1, c.2)) a =
        if a = 0 then none else Memory.read m (a - 1) := by
    intro m a
    induction m with
    | nil => simp [Memory.read]
    | cons c m ih =>
      obtain ⟨x, v⟩ := c
      rw [List.map_cons, Memory.read, ih]
      by_cases ha : a = 0
      · simp [ha]
      · rw [if_neg ha, if_neg ha, Memory.read]
        by_cases hx : x = a - 1
        · rw [if_pos hx, if_pos (by omega)]
        · rw [if_neg hx, if_neg (by omega)]
  have := Memory.risesAbove_ext (lift h) (lift h') fun a => by simp only [readUp, heq]
  exact List.map_injective_iff.2 (fun c d hcd => by
    obtain ⟨x, v⟩ := c; obtain ⟨y, w⟩ := d
    simp only [Prod.mk.injEq] at hcd ⊢
    exact ⟨by omega, hcd.2⟩) this

theorem Memory.foldl_write_wf {ss : List Host.Cell} {m : Memory} (h : Memory.wf m = true) :
    Memory.wf (ss.foldl (fun m c => Memory.write m c.1 c.2) m) = true := by
  induction ss generalizing m with
  | nil => exact h
  | cons c ss ih => exact ih (Memory.write_wf h c.1 c.2)

theorem Memory.read_foldl_write_of_notListed {ss : List Host.Cell} {m : Memory} (h : Memory.wf m = true)
    {a : Nat} (ha : Memory.read ss a = none) :
    Memory.read (ss.foldl (fun m c => Memory.write m c.1 c.2) m) a = Memory.read m a := by
  induction ss generalizing m with
  | nil => rfl
  | cons c ss ih =>
    obtain ⟨x, v⟩ := c
    rw [Memory.read] at ha
    split at ha
    · cases ha
    · rw [List.foldl_cons, ih (Memory.write_wf h x v) ha, Memory.read_write h, if_neg (by omega)]

/-- One pass over rising stores is one store after another, in their order. -/
theorem Memory.storeRising_eq_foldl_write {ss : List Host.Cell} {m : Memory} (hs : Memory.Rising ss)
    (h : Memory.wf m = true) :
    Memory.storeRising ss m = ss.foldl (fun m c => Memory.write m c.1 c.2) m := by
  refine Memory.wf_ext (Memory.storeRising_wf hs h) (Memory.foldl_write_wf h) fun a => ?_
  rw [Memory.read_storeRising hs h]
  induction ss generalizing m with
  | nil => rfl
  | cons c ss ih =>
    obtain ⟨x, v⟩ := c
    have hs' : Memory.risesAbove x ss = true := hs
    rw [Memory.read, List.foldl_cons]
    by_cases hx : x = a
    · subst hx
      rw [if_pos rfl,
        Memory.read_foldl_write_of_notListed (Memory.write_wf h x v)
          (Memory.read_of_risesAbove hs' (by omega)),
        Memory.read_write h, if_pos rfl]
      rfl
    · rw [if_neg hx, ← ih (Memory.wf_of_risesAbove hs') (Memory.write_wf h x v),
        Memory.read_write h, if_neg (Ne.symm hx)]

end Sys2Proof.Machine
end

