-- ==== Sys2Proof/Laws/State.lean ====
section
/-! SUPPORT. One lemma for each field of the state under each update: what the shared operations leave unchanged, and
the fields they set. -/

namespace Sys2Proof.Machine

open Sys2Proof.Config


@[simp] theorem emit_cursor (es : List Event) (s : State) : (emit es s).cursor = s.cursor := rfl
@[simp] theorem emit_bg (es : List Event) (s : State) : (emit es s).bg = s.bg := rfl
@[simp] theorem emit_fg (es : List Event) (s : State) : (emit es s).fg = s.fg := rfl
@[simp] theorem emit_front (es : List Event) (s : State) : (emit es s).front = s.front := rfl
@[simp] theorem emit_back (es : List Event) (s : State) : (emit es s).back = s.back := rfl
@[simp] theorem emit_errRange (es : List Event) (s : State) :
    (emit es s).errRange = s.errRange := rfl
@[simp] theorem emit_errIllegal (es : List Event) (s : State) :
    (emit es s).errIllegal = s.errIllegal := rfl
@[simp] theorem emit_errCause (es : List Event) (s : State) :
    (emit es s).errCause = s.errCause := rfl
@[simp] theorem emit_errWord (es : List Event) (s : State) : (emit es s).errWord = s.errWord := rfl
@[simp] theorem emit_ci (es : List Event) (s : State) : (emit es s).ci = s.ci := rfl
@[simp] theorem emit_mem (es : List Event) (s : State) : (emit es s).mem = s.mem := rfl
@[simp] theorem emit_history (es : List Event) (s : State) :
    (emit es s).history = s.history ++ es := rfl
@[simp] theorem emit_inputs (es : List Event) (s : State) : (emit es s).inputs = s.inputs := rfl
@[simp] theorem emit_params (es : List Event) (s : State) : (emit es s).params = s.params := rfl
@[simp] theorem emit_draws (es : List Event) (s : State) : (emit es s).draws = s.draws := rfl

@[simp] theorem portWrite_cursor (p : Port) (v : Byte) (s : State) :
    (portWrite p v s).cursor = s.cursor := rfl
@[simp] theorem portWrite_bg (p : Port) (v : Byte) (s : State) : (portWrite p v s).bg = s.bg := rfl
@[simp] theorem portWrite_fg (p : Port) (v : Byte) (s : State) : (portWrite p v s).fg = s.fg := rfl
@[simp] theorem portWrite_front (p : Port) (v : Byte) (s : State) :
    (portWrite p v s).front = s.front := rfl
@[simp] theorem portWrite_back (p : Port) (v : Byte) (s : State) :
    (portWrite p v s).back = s.back := rfl
@[simp] theorem portWrite_errRange (p : Port) (v : Byte) (s : State) :
    (portWrite p v s).errRange = s.errRange := rfl
@[simp] theorem portWrite_errIllegal (p : Port) (v : Byte) (s : State) :
    (portWrite p v s).errIllegal = s.errIllegal := rfl
@[simp] theorem portWrite_errCause (p : Port) (v : Byte) (s : State) :
    (portWrite p v s).errCause = s.errCause := rfl
@[simp] theorem portWrite_errWord (p : Port) (v : Byte) (s : State) :
    (portWrite p v s).errWord = s.errWord := rfl
@[simp] theorem portWrite_ci (p : Port) (v : Byte) (s : State) : (portWrite p v s).ci = s.ci := rfl
@[simp] theorem portWrite_mem (p : Port) (v : Byte) (s : State) :
    (portWrite p v s).mem = s.mem := rfl
@[simp] theorem portWrite_history (p : Port) (v : Byte) (s : State) :
    (portWrite p v s).history = s.history ++ [.portWrite p v] := rfl
@[simp] theorem portWrite_inputs (p : Port) (v : Byte) (s : State) :
    (portWrite p v s).inputs = s.inputs := rfl
@[simp] theorem portWrite_params (p : Port) (v : Byte) (s : State) :
    (portWrite p v s).params = s.params := rfl
@[simp] theorem portWrite_draws (p : Port) (v : Byte) (s : State) :
    (portWrite p v s).draws = s.draws := rfl

@[simp] theorem portRead_cursor (p : Port) (v : Byte) (s : State) :
    (portRead p v s).cursor = s.cursor := rfl
@[simp] theorem portRead_bg (p : Port) (v : Byte) (s : State) : (portRead p v s).bg = s.bg := rfl
@[simp] theorem portRead_fg (p : Port) (v : Byte) (s : State) : (portRead p v s).fg = s.fg := rfl
@[simp] theorem portRead_front (p : Port) (v : Byte) (s : State) :
    (portRead p v s).front = s.front := rfl
@[simp] theorem portRead_back (p : Port) (v : Byte) (s : State) :
    (portRead p v s).back = s.back := rfl
@[simp] theorem portRead_errRange (p : Port) (v : Byte) (s : State) :
    (portRead p v s).errRange = s.errRange := rfl
@[simp] theorem portRead_errIllegal (p : Port) (v : Byte) (s : State) :
    (portRead p v s).errIllegal = s.errIllegal := rfl
@[simp] theorem portRead_errCause (p : Port) (v : Byte) (s : State) :
    (portRead p v s).errCause = s.errCause := rfl
@[simp] theorem portRead_errWord (p : Port) (v : Byte) (s : State) :
    (portRead p v s).errWord = s.errWord := rfl
@[simp] theorem portRead_ci (p : Port) (v : Byte) (s : State) : (portRead p v s).ci = s.ci := rfl
@[simp] theorem portRead_mem (p : Port) (v : Byte) (s : State) : (portRead p v s).mem = s.mem := rfl
@[simp] theorem portRead_history (p : Port) (v : Byte) (s : State) :
    (portRead p v s).history = s.history ++ [.portRead p v] := rfl
@[simp] theorem portRead_inputs (p : Port) (v : Byte) (s : State) :
    (portRead p v s).inputs = s.inputs := rfl
@[simp] theorem portRead_params (p : Port) (v : Byte) (s : State) :
    (portRead p v s).params = s.params := rfl
@[simp] theorem portRead_draws (p : Port) (v : Byte) (s : State) :
    (portRead p v s).draws = s.draws + 1 := rfl

@[simp] theorem raiseError_cursor (k : Cause) (w : Word) (s : State) :
    (raiseError k w s).cursor = s.cursor := rfl
@[simp] theorem raiseError_bg (k : Cause) (w : Word) (s : State) :
    (raiseError k w s).bg = s.bg := rfl
@[simp] theorem raiseError_fg (k : Cause) (w : Word) (s : State) :
    (raiseError k w s).fg = s.fg := rfl
@[simp] theorem raiseError_front (k : Cause) (w : Word) (s : State) :
    (raiseError k w s).front = s.front := rfl
@[simp] theorem raiseError_back (k : Cause) (w : Word) (s : State) :
    (raiseError k w s).back = s.back := rfl
@[simp] theorem raiseError_errRange (k : Cause) (w : Word) (s : State) :
    (raiseError k w s).errRange = (s.errRange || decide (k = .range)) := rfl
@[simp] theorem raiseError_errIllegal (k : Cause) (w : Word) (s : State) :
    (raiseError k w s).errIllegal = (s.errIllegal || decide (k = .illegal)) := rfl
@[simp] theorem raiseError_errCause (k : Cause) (w : Word) (s : State) :
    (raiseError k w s).errCause = (if s.errCause = 0#2 then causeCode k else s.errCause) := rfl
@[simp] theorem raiseError_errWord (k : Cause) (w : Word) (s : State) :
    (raiseError k w s).errWord = (if s.errCause = 0#2 then w else s.errWord) := rfl
@[simp] theorem raiseError_ci (k : Cause) (w : Word) (s : State) :
    (raiseError k w s).ci = s.ci := rfl
@[simp] theorem raiseError_mem (k : Cause) (w : Word) (s : State) :
    (raiseError k w s).mem = s.mem := rfl
@[simp] theorem raiseError_history (k : Cause) (w : Word) (s : State) :
    (raiseError k w s).history = s.history := rfl
@[simp] theorem raiseError_inputs (k : Cause) (w : Word) (s : State) :
    (raiseError k w s).inputs = s.inputs := rfl
@[simp] theorem raiseError_params (k : Cause) (w : Word) (s : State) :
    (raiseError k w s).params = s.params := rfl
@[simp] theorem raiseError_draws (k : Cause) (w : Word) (s : State) :
    (raiseError k w s).draws = s.draws := rfl

@[simp] theorem stage_cursor (i : Fin cells) (ch : Byte) (color : Color) (s : State) :
    (stage i ch color s).cursor = s.cursor := rfl
@[simp] theorem stage_bg (i : Fin cells) (ch : Byte) (color : Color) (s : State) :
    (stage i ch color s).bg = s.bg := rfl
@[simp] theorem stage_fg (i : Fin cells) (ch : Byte) (color : Color) (s : State) :
    (stage i ch color s).fg = s.fg := rfl
@[simp] theorem stage_front (i : Fin cells) (ch : Byte) (color : Color) (s : State) :
    (stage i ch color s).front = s.front := rfl
@[simp] theorem stage_back (i : Fin cells) (ch : Byte) (color : Color) (s : State) :
    (stage i ch color s).back = s.back.set i (some ⟨ch, pack s.bg color⟩) i.isLt := rfl
@[simp] theorem stage_errRange (i : Fin cells) (ch : Byte) (color : Color) (s : State) :
    (stage i ch color s).errRange = s.errRange := rfl
@[simp] theorem stage_errIllegal (i : Fin cells) (ch : Byte) (color : Color) (s : State) :
    (stage i ch color s).errIllegal = s.errIllegal := rfl
@[simp] theorem stage_errCause (i : Fin cells) (ch : Byte) (color : Color) (s : State) :
    (stage i ch color s).errCause = s.errCause := rfl
@[simp] theorem stage_errWord (i : Fin cells) (ch : Byte) (color : Color) (s : State) :
    (stage i ch color s).errWord = s.errWord := rfl
@[simp] theorem stage_ci (i : Fin cells) (ch : Byte) (color : Color) (s : State) :
    (stage i ch color s).ci = s.ci := rfl
@[simp] theorem stage_mem (i : Fin cells) (ch : Byte) (color : Color) (s : State) :
    (stage i ch color s).mem = s.mem := rfl
@[simp] theorem stage_history (i : Fin cells) (ch : Byte) (color : Color) (s : State) :
    (stage i ch color s).history = s.history := rfl
@[simp] theorem stage_inputs (i : Fin cells) (ch : Byte) (color : Color) (s : State) :
    (stage i ch color s).inputs = s.inputs := rfl
@[simp] theorem stage_params (i : Fin cells) (ch : Byte) (color : Color) (s : State) :
    (stage i ch color s).params = s.params := rfl
@[simp] theorem stage_draws (i : Fin cells) (ch : Byte) (color : Color) (s : State) :
    (stage i ch color s).draws = s.draws := rfl

@[simp] theorem scroll_cursor (s : State) : (scroll s).cursor = BitVec.ofNat 11 lastRowStart := rfl
@[simp] theorem scroll_bg (s : State) : (scroll s).bg = s.bg := rfl
@[simp] theorem scroll_fg (s : State) : (scroll s).fg = s.fg := rfl
@[simp] theorem scroll_front (s : State) : (scroll s).front = s.front := rfl
@[simp] theorem scroll_errRange (s : State) : (scroll s).errRange = s.errRange := rfl
@[simp] theorem scroll_errIllegal (s : State) : (scroll s).errIllegal = s.errIllegal := rfl
@[simp] theorem scroll_errCause (s : State) : (scroll s).errCause = s.errCause := rfl
@[simp] theorem scroll_errWord (s : State) : (scroll s).errWord = s.errWord := rfl
@[simp] theorem scroll_ci (s : State) : (scroll s).ci = s.ci := rfl
@[simp] theorem scroll_mem (s : State) : (scroll s).mem = s.mem := rfl
@[simp] theorem scroll_history (s : State) : (scroll s).history = s.history := rfl
@[simp] theorem scroll_inputs (s : State) : (scroll s).inputs = s.inputs := rfl
@[simp] theorem scroll_params (s : State) : (scroll s).params = s.params := rfl
@[simp] theorem scroll_draws (s : State) : (scroll s).draws = s.draws := rfl

@[simp] theorem repaintAll_cursor (b : Color) (s : State) : (repaintAll b s).cursor = s.cursor := rfl
@[simp] theorem repaintAll_bg (b : Color) (s : State) : (repaintAll b s).bg = b := rfl
@[simp] theorem repaintAll_fg (b : Color) (s : State) : (repaintAll b s).fg = s.fg := rfl
@[simp] theorem repaintAll_front (b : Color) (s : State) : (repaintAll b s).front = s.front := rfl
@[simp] theorem repaintAll_errRange (b : Color) (s : State) : (repaintAll b s).errRange = s.errRange := rfl
@[simp] theorem repaintAll_errIllegal (b : Color) (s : State) : (repaintAll b s).errIllegal = s.errIllegal := rfl
@[simp] theorem repaintAll_errCause (b : Color) (s : State) : (repaintAll b s).errCause = s.errCause := rfl
@[simp] theorem repaintAll_errWord (b : Color) (s : State) : (repaintAll b s).errWord = s.errWord := rfl
@[simp] theorem repaintAll_ci (b : Color) (s : State) : (repaintAll b s).ci = s.ci := rfl
@[simp] theorem repaintAll_mem (b : Color) (s : State) : (repaintAll b s).mem = s.mem := rfl
@[simp] theorem repaintAll_history (b : Color) (s : State) : (repaintAll b s).history = s.history := rfl
@[simp] theorem repaintAll_inputs (b : Color) (s : State) : (repaintAll b s).inputs = s.inputs := rfl
@[simp] theorem repaintAll_params (b : Color) (s : State) : (repaintAll b s).params = s.params := rfl
@[simp] theorem repaintAll_draws (b : Color) (s : State) : (repaintAll b s).draws = s.draws := rfl

@[simp] theorem commitStaged_cursor (s : State) : (commitStaged s).cursor = s.cursor := rfl
@[simp] theorem commitStaged_bg (s : State) : (commitStaged s).bg = s.bg := rfl
@[simp] theorem commitStaged_fg (s : State) : (commitStaged s).fg = s.fg := rfl
@[simp] theorem commitStaged_front (s : State) :
    (commitStaged s).front = Grid.zipWith shown s.back s.front := rfl
@[simp] theorem commitStaged_back (s : State) :
    (commitStaged s).back = Vector.replicate cells none := rfl
@[simp] theorem commitStaged_errRange (s : State) : (commitStaged s).errRange = s.errRange := rfl
@[simp] theorem commitStaged_errIllegal (s : State) :
    (commitStaged s).errIllegal = s.errIllegal := rfl
@[simp] theorem commitStaged_errCause (s : State) : (commitStaged s).errCause = s.errCause := rfl
@[simp] theorem commitStaged_errWord (s : State) : (commitStaged s).errWord = s.errWord := rfl
@[simp] theorem commitStaged_ci (s : State) : (commitStaged s).ci = s.ci := rfl
@[simp] theorem commitStaged_mem (s : State) :
    (commitStaged s).mem = Memory.storeRising (commitStores s) s.mem := rfl
@[simp] theorem commitStaged_history (s : State) :
    (commitStaged s).history = s.history ++ (commitStores s).map (fun c => .memWrite c.1 c.2) := rfl
@[simp] theorem commitStaged_inputs (s : State) : (commitStaged s).inputs = s.inputs := rfl
@[simp] theorem commitStaged_params (s : State) : (commitStaged s).params = s.params := rfl
@[simp] theorem commitStaged_draws (s : State) : (commitStaged s).draws = s.draws := rfl

@[simp] theorem assertReset_cursor (s : State) :
    (assertReset s).cursor = s.params.resetCursor := rfl
@[simp] theorem assertReset_bg (s : State) : (assertReset s).bg = s.params.resetBg := rfl
@[simp] theorem assertReset_fg (s : State) : (assertReset s).fg = s.params.resetFg := rfl
@[simp] theorem assertReset_front (s : State) :
    (assertReset s).front = frontAfterReset s.draws := rfl
@[simp] theorem assertReset_back (s : State) :
    (assertReset s).back = Vector.replicate cells (some (blank s.params s.params.resetBg)) := rfl
@[simp] theorem assertReset_errRange (s : State) : (assertReset s).errRange = false := rfl
@[simp] theorem assertReset_errIllegal (s : State) : (assertReset s).errIllegal = false := rfl
@[simp] theorem assertReset_errCause (s : State) : (assertReset s).errCause = 0#2 := rfl
@[simp] theorem assertReset_errWord (s : State) : (assertReset s).errWord = 0#32 := rfl
@[simp] theorem assertReset_ci (s : State) : (assertReset s).ci = 0 := rfl
@[simp] theorem assertReset_mem (s : State) : (assertReset s).mem = s.mem := rfl
@[simp] theorem assertReset_history (s : State) : (assertReset s).history = s.history := rfl
@[simp] theorem assertReset_inputs (s : State) : (assertReset s).inputs = s.inputs := rfl
@[simp] theorem assertReset_params (s : State) : (assertReset s).params = s.params := rfl
@[simp] theorem assertReset_draws (s : State) : (assertReset s).draws = s.draws + 1 := rfl

@[simp] theorem advanceIndex_cursor (s : State) : (advanceIndex s).cursor = s.cursor := rfl
@[simp] theorem advanceIndex_bg (s : State) : (advanceIndex s).bg = s.bg := rfl
@[simp] theorem advanceIndex_fg (s : State) : (advanceIndex s).fg = s.fg := rfl
@[simp] theorem advanceIndex_front (s : State) : (advanceIndex s).front = s.front := rfl
@[simp] theorem advanceIndex_back (s : State) : (advanceIndex s).back = s.back := rfl
@[simp] theorem advanceIndex_errRange (s : State) : (advanceIndex s).errRange = s.errRange := rfl
@[simp] theorem advanceIndex_errIllegal (s : State) :
    (advanceIndex s).errIllegal = s.errIllegal := rfl
@[simp] theorem advanceIndex_errCause (s : State) : (advanceIndex s).errCause = s.errCause := rfl
@[simp] theorem advanceIndex_errWord (s : State) : (advanceIndex s).errWord = s.errWord := rfl
@[simp] theorem advanceIndex_ci (s : State) : (advanceIndex s).ci = s.ci + 1 := rfl
@[simp] theorem advanceIndex_mem (s : State) : (advanceIndex s).mem = s.mem := rfl
@[simp] theorem advanceIndex_history (s : State) : (advanceIndex s).history = s.history := rfl
@[simp] theorem advanceIndex_inputs (s : State) : (advanceIndex s).inputs = s.inputs := rfl
@[simp] theorem advanceIndex_params (s : State) : (advanceIndex s).params = s.params := rfl
@[simp] theorem advanceIndex_draws (s : State) : (advanceIndex s).draws = s.draws := rfl

@[simp] theorem deliverNext_cursor (w : Word) (s : State) :
    (deliverNext w s).cursor = s.cursor := rfl
@[simp] theorem deliverNext_bg (w : Word) (s : State) : (deliverNext w s).bg = s.bg := rfl
@[simp] theorem deliverNext_fg (w : Word) (s : State) : (deliverNext w s).fg = s.fg := rfl
@[simp] theorem deliverNext_front (w : Word) (s : State) : (deliverNext w s).front = s.front := rfl
@[simp] theorem deliverNext_back (w : Word) (s : State) : (deliverNext w s).back = s.back := rfl
@[simp] theorem deliverNext_errRange (w : Word) (s : State) :
    (deliverNext w s).errRange = s.errRange := rfl
@[simp] theorem deliverNext_errIllegal (w : Word) (s : State) :
    (deliverNext w s).errIllegal = s.errIllegal := rfl
@[simp] theorem deliverNext_errCause (w : Word) (s : State) :
    (deliverNext w s).errCause = s.errCause := rfl
@[simp] theorem deliverNext_errWord (w : Word) (s : State) :
    (deliverNext w s).errWord = s.errWord := rfl
@[simp] theorem deliverNext_ci (w : Word) (s : State) : (deliverNext w s).ci = s.ci := rfl
@[simp] theorem deliverNext_mem (w : Word) (s : State) : (deliverNext w s).mem = s.mem := rfl
@[simp] theorem deliverNext_history (w : Word) (s : State) :
    (deliverNext w s).history = s.history := rfl
@[simp] theorem deliverNext_inputs (w : Word) (s : State) :
    (deliverNext w s).inputs = .command w :: s.inputs := rfl
@[simp] theorem deliverNext_params (w : Word) (s : State) :
    (deliverNext w s).params = s.params := rfl
@[simp] theorem deliverNext_draws (w : Word) (s : State) : (deliverNext w s).draws = s.draws := rfl

@[simp] theorem blinkSequence_cursor (d m : Byte) (s : State) :
    (blinkSequence d m s).cursor = s.cursor := by
  simp [blinkSequence]
@[simp] theorem blinkSequence_bg (d m : Byte) (s : State) : (blinkSequence d m s).bg = s.bg := by
  simp [blinkSequence]
@[simp] theorem blinkSequence_fg (d m : Byte) (s : State) : (blinkSequence d m s).fg = s.fg := by
  simp [blinkSequence]
@[simp] theorem blinkSequence_front (d m : Byte) (s : State) :
    (blinkSequence d m s).front = s.front := by
  simp [blinkSequence]
@[simp] theorem blinkSequence_back (d m : Byte) (s : State) :
    (blinkSequence d m s).back = s.back := by
  simp [blinkSequence]
@[simp] theorem blinkSequence_errRange (d m : Byte) (s : State) :
    (blinkSequence d m s).errRange = s.errRange := by
  simp [blinkSequence]
@[simp] theorem blinkSequence_errIllegal (d m : Byte) (s : State) :
    (blinkSequence d m s).errIllegal = s.errIllegal := by
  simp [blinkSequence]
@[simp] theorem blinkSequence_errCause (d m : Byte) (s : State) :
    (blinkSequence d m s).errCause = s.errCause := by
  simp [blinkSequence]
@[simp] theorem blinkSequence_errWord (d m : Byte) (s : State) :
    (blinkSequence d m s).errWord = s.errWord := by
  simp [blinkSequence]
@[simp] theorem blinkSequence_ci (d m : Byte) (s : State) : (blinkSequence d m s).ci = s.ci := by
  simp [blinkSequence]
@[simp] theorem blinkSequence_mem (d m : Byte) (s : State) : (blinkSequence d m s).mem = s.mem := by
  simp [blinkSequence]
@[simp] theorem blinkSequence_inputs (d m : Byte) (s : State) :
    (blinkSequence d m s).inputs = s.inputs := by
  simp [blinkSequence]
@[simp] theorem blinkSequence_params (d m : Byte) (s : State) :
    (blinkSequence d m s).params = s.params := by
  simp [blinkSequence]
@[simp] theorem blinkSequence_draws (d m : Byte) (s : State) :
    (blinkSequence d m s).draws = s.draws + 2 := by
  simp [blinkSequence]

@[simp] theorem blinkSequence_history (d m : Byte) (s : State) :
    (blinkSequence d m s).history = s.history ++
      [.portRead s.params.inputStatus1 d, .portWrite s.params.attrIndex s.params.attrModeSelect,
       .portRead s.params.attrDataRead m, .portWrite s.params.attrIndex (m ^^^ s.params.blinkBit)] := by
  simp [blinkSequence]

/-! The cursor movements change at most the cursor and, through a scroll, the back buffer. -/

@[simp] theorem advanceOne_bg (s : State) : (advanceOne s).bg = s.bg := by
  unfold advanceOne; split <;> rfl
@[simp] theorem advanceOne_fg (s : State) : (advanceOne s).fg = s.fg := by
  unfold advanceOne; split <;> rfl
@[simp] theorem advanceOne_front (s : State) : (advanceOne s).front = s.front := by
  unfold advanceOne; split <;> rfl
@[simp] theorem advanceOne_errRange (s : State) : (advanceOne s).errRange = s.errRange := by
  unfold advanceOne; split <;> rfl
@[simp] theorem advanceOne_errIllegal (s : State) : (advanceOne s).errIllegal = s.errIllegal := by
  unfold advanceOne; split <;> rfl
@[simp] theorem advanceOne_errCause (s : State) : (advanceOne s).errCause = s.errCause := by
  unfold advanceOne; split <;> rfl
@[simp] theorem advanceOne_errWord (s : State) : (advanceOne s).errWord = s.errWord := by
  unfold advanceOne; split <;> rfl
@[simp] theorem advanceOne_ci (s : State) : (advanceOne s).ci = s.ci := by
  unfold advanceOne; split <;> rfl
@[simp] theorem advanceOne_mem (s : State) : (advanceOne s).mem = s.mem := by
  unfold advanceOne; split <;> rfl
@[simp] theorem advanceOne_history (s : State) : (advanceOne s).history = s.history := by
  unfold advanceOne; split <;> rfl
@[simp] theorem advanceOne_inputs (s : State) : (advanceOne s).inputs = s.inputs := by
  unfold advanceOne; split <;> rfl
@[simp] theorem advanceOne_params (s : State) : (advanceOne s).params = s.params := by
  unfold advanceOne; split <;> rfl
@[simp] theorem advanceOne_draws (s : State) : (advanceOne s).draws = s.draws := by
  unfold advanceOne; split <;> rfl

@[simp] theorem newlineAdvance_bg (s : State) : (newlineAdvance s).bg = s.bg := by
  unfold newlineAdvance; split <;> rfl
@[simp] theorem newlineAdvance_fg (s : State) : (newlineAdvance s).fg = s.fg := by
  unfold newlineAdvance; split <;> rfl
@[simp] theorem newlineAdvance_front (s : State) : (newlineAdvance s).front = s.front := by
  unfold newlineAdvance; split <;> rfl
@[simp] theorem newlineAdvance_errRange (s : State) : (newlineAdvance s).errRange = s.errRange := by
  unfold newlineAdvance; split <;> rfl
@[simp] theorem newlineAdvance_errIllegal (s : State) :
    (newlineAdvance s).errIllegal = s.errIllegal := by
  unfold newlineAdvance; split <;> rfl
@[simp] theorem newlineAdvance_errCause (s : State) : (newlineAdvance s).errCause = s.errCause := by
  unfold newlineAdvance; split <;> rfl
@[simp] theorem newlineAdvance_errWord (s : State) : (newlineAdvance s).errWord = s.errWord := by
  unfold newlineAdvance; split <;> rfl
@[simp] theorem newlineAdvance_ci (s : State) : (newlineAdvance s).ci = s.ci := by
  unfold newlineAdvance; split <;> rfl
@[simp] theorem newlineAdvance_mem (s : State) : (newlineAdvance s).mem = s.mem := by
  unfold newlineAdvance; split <;> rfl
@[simp] theorem newlineAdvance_history (s : State) : (newlineAdvance s).history = s.history := by
  unfold newlineAdvance; split <;> rfl
@[simp] theorem newlineAdvance_inputs (s : State) : (newlineAdvance s).inputs = s.inputs := by
  unfold newlineAdvance; split <;> rfl
@[simp] theorem newlineAdvance_params (s : State) : (newlineAdvance s).params = s.params := by
  unfold newlineAdvance; split <;> rfl
@[simp] theorem newlineAdvance_draws (s : State) : (newlineAdvance s).draws = s.draws := by
  unfold newlineAdvance; split <;> rfl

@[simp] theorem takePendingScroll_bg (s : State) : (takePendingScroll s).bg = s.bg := by
  unfold takePendingScroll; split <;> rfl
@[simp] theorem takePendingScroll_fg (s : State) : (takePendingScroll s).fg = s.fg := by
  unfold takePendingScroll; split <;> rfl
@[simp] theorem takePendingScroll_front (s : State) : (takePendingScroll s).front = s.front := by
  unfold takePendingScroll; split <;> rfl
@[simp] theorem takePendingScroll_errRange (s : State) :
    (takePendingScroll s).errRange = s.errRange := by
  unfold takePendingScroll; split <;> rfl
@[simp] theorem takePendingScroll_errIllegal (s : State) :
    (takePendingScroll s).errIllegal = s.errIllegal := by
  unfold takePendingScroll; split <;> rfl
@[simp] theorem takePendingScroll_errCause (s : State) :
    (takePendingScroll s).errCause = s.errCause := by
  unfold takePendingScroll; split <;> rfl
@[simp] theorem takePendingScroll_errWord (s : State) :
    (takePendingScroll s).errWord = s.errWord := by
  unfold takePendingScroll; split <;> rfl
@[simp] theorem takePendingScroll_ci (s : State) : (takePendingScroll s).ci = s.ci := by
  unfold takePendingScroll; split <;> rfl
@[simp] theorem takePendingScroll_mem (s : State) : (takePendingScroll s).mem = s.mem := by
  unfold takePendingScroll; split <;> rfl
@[simp] theorem takePendingScroll_history (s : State) :
    (takePendingScroll s).history = s.history := by
  unfold takePendingScroll; split <;> rfl
@[simp] theorem takePendingScroll_inputs (s : State) : (takePendingScroll s).inputs = s.inputs := by
  unfold takePendingScroll; split <;> rfl
@[simp] theorem takePendingScroll_params (s : State) : (takePendingScroll s).params = s.params := by
  unfold takePendingScroll; split <;> rfl
@[simp] theorem takePendingScroll_draws (s : State) : (takePendingScroll s).draws = s.draws := by
  unfold takePendingScroll; split <;> rfl

end Sys2Proof.Machine
end

