-- ==== Sys2Proof/Laws/Ops.lean ====
section
/-! SUPPORT. What each shared operation does, said once. -/

namespace Sys2Proof.Machine

open Sys2Proof.Config

/-- After a scroll, a slot above the bottom row holds what the slot one row below showed. -/
theorem scroll_back_of_lt (s : State) (i : Nat) (h : i + cols < cells) :
    (scroll s).back[i] = some (shown s.back[i + cols] s.front[i + cols]) := by
  simp only [scroll]
  rw [Grid.getElem_shiftBy_of_lt _ _ _ _ h, Grid.getElem_zipWith]

/-- After a scroll, a slot of the bottom row is blank with the current background. -/
theorem scroll_back_of_ge (s : State) (i : Nat) (h : i < cells) (hi : cells ≤ i + cols) :
    (scroll s).back[i] = some (blank s.params s.bg) := by
  simp only [scroll]
  rw [Grid.getElem_shiftBy_of_ge _ _ _ _ h hi]

/-- After a scroll every slot is staged. -/
theorem scroll_back_isSome (s : State) (i : Nat) (h : i < cells) :
    (scroll s).back[i].isSome = true := by
  by_cases hi : i + cols < cells
  · rw [scroll_back_of_lt s i hi]; rfl
  · rw [scroll_back_of_ge s i h (by omega)]; rfl

/-- After SETBG, a slot holds what it showed, repainted. -/
theorem repaintAll_back_getElem (b : Color) (s : State) (i : Nat) (h : i < cells) :
    (repaintAll b s).back[i] = some (repaint b (shown s.back[i] s.front[i])) := by
  simp only [repaintAll, Grid.getElem_zipWith]

@[simp] theorem scroll_cursor_toNat (s : State) : (scroll s).cursor.toNat = lastRowStart := rfl

/-- From a cursor on the grid, advancing is adding one (40_output.md R102). -/
theorem advanceOne_of_lt (s : State) (h : s.cursor.toNat < cells) :
    advanceOne s = { s with cursor := BitVec.ofNat 11 (s.cursor.toNat + 1) } := by
  rw [advanceOne, if_neg (by omega)]

theorem newlineAdvance_of_lt (s : State) (h : s.cursor.toNat < lastRowStart) :
    newlineAdvance s =
      { s with cursor := BitVec.ofNat 11 (s.cursor.toNat - s.cursor.toNat % cols + cols) } := by
  rw [newlineAdvance, if_neg (by omega)]

theorem newlineAdvance_of_ge (s : State) (h : lastRowStart ≤ s.cursor.toNat) :
    newlineAdvance s = scroll s := by
  rw [newlineAdvance, if_pos h]

theorem takePendingScroll_of_eq (s : State) (h : s.cursor.toNat = cells) :
    takePendingScroll s = scroll s := by
  rw [takePendingScroll, if_pos h]

theorem takePendingScroll_of_ne (s : State) (h : s.cursor.toNat ≠ cells) :
    takePendingScroll s = s := by
  rw [takePendingScroll, if_neg h]

/-- The stores of the slots from offset `k` on. -/
def storesFrom (p : Params) (k : Nat) (slots : List Slot) : List Host.Cell :=
  (List.zipWith (slotStores p) slots (List.range' k slots.length)).flatten

theorem commitStores_eq_storesFrom (s : State) :
    commitStores s = storesFrom s.params 0 s.back.toList := by
  simp only [commitStores, storesFrom, List.range_eq_range', Vector.length_toList]

theorem storesFrom_cons (p : Params) (k : Nat) (slot : Slot) (slots : List Slot) :
    storesFrom p k (slot :: slots) = slotStores p slot k ++ storesFrom p (k + 1) slots := by
  simp [storesFrom, List.range'_succ]

/-- The stores of a commit have rising addresses, all of them above what lies below slot `k`. -/
theorem storesFrom_risesAbove (p : Params) (k : Nat) (slots : List Slot) (lo : Nat)
    (h : lo < charAddr p k) : Memory.risesAbove lo (storesFrom p k slots) = true := by
  induction slots generalizing k lo with
  | nil => rfl
  | cons slot slots ih =>
    rw [storesFrom_cons]
    cases slot with
    | none => exact ih (k + 1) lo (by simp only [charAddr] at *; omega)
    | some c =>
      simp only [slotStores, List.cons_append, List.nil_append, Memory.risesAbove_cons]
      refine ⟨h, by simp only [charAddr, attrAddr]; omega, ih (k + 1) _ ?_⟩
      simp only [charAddr, attrAddr]; omega

theorem storesFrom_rising (p : Params) (k : Nat) (slots : List Slot) :
    Memory.Rising (storesFrom p k slots) := by
  induction slots generalizing k with
  | nil => rfl
  | cons slot slots ih =>
    rw [storesFrom_cons]
    cases slot with
    | none => exact ih (k + 1)
    | some c =>
      simp only [slotStores, List.cons_append, List.nil_append, Memory.Rising, Memory.wf,
        Memory.risesAbove_cons]
      refine ⟨by simp only [charAddr, attrAddr]; omega, storesFrom_risesAbove _ _ _ _ ?_⟩
      simp only [charAddr, attrAddr]; omega

theorem commitStores_rising (s : State) : Memory.Rising (commitStores s) := by
  rw [commitStores_eq_storesFrom]
  exact storesFrom_rising _ _ _

/-- What the stores from slot `k` on put at the character address of slot `k + j`. -/
theorem read_storesFrom_charAddr (p : Params) (k : Nat) (slots : List Slot) (j : Nat)
    (h : j < slots.length) :
    Memory.read (storesFrom p k slots) (charAddr p (k + j)) = slots[j].map (·.ch) := by
  induction slots generalizing k j with
  | nil => exact absurd h (by simp)
  | cons slot slots ih =>
    rw [storesFrom_cons]
    cases j with
    | zero =>
      cases slot with
      | none =>
        simp only [slotStores, List.nil_append, Nat.add_zero, List.getElem_cons_zero, Option.map_none]
        exact Memory.read_of_risesAbove
          (storesFrom_risesAbove _ _ _ (charAddr p k) (by simp only [charAddr]; omega)) (Nat.le_refl _)
      | some c => simp [slotStores, Memory.read_cons]
    | succ j =>
      have := ih (k + 1) j (by simpa using h)
      rw [show k + 1 + j = k + (j + 1) by omega] at this
      cases slot with
      | none => simpa [slotStores] using this
      | some c =>
        simp only [slotStores, List.cons_append, List.nil_append, Memory.read_cons]
        rw [if_neg (by simp only [charAddr]; omega), if_neg (by simp only [charAddr, attrAddr]; omega)]
        simpa using this

/-- What the stores from slot `k` on put at the attribute address of slot `k + j`. -/
theorem read_storesFrom_attrAddr (p : Params) (k : Nat) (slots : List Slot) (j : Nat)
    (h : j < slots.length) :
    Memory.read (storesFrom p k slots) (attrAddr p (k + j)) = slots[j].map (·.attr) := by
  induction slots generalizing k j with
  | nil => exact absurd h (by simp)
  | cons slot slots ih =>
    rw [storesFrom_cons]
    cases j with
    | zero =>
      cases slot with
      | none =>
        simp only [slotStores, List.nil_append, Nat.add_zero, List.getElem_cons_zero, Option.map_none]
        exact Memory.read_of_risesAbove
          (storesFrom_risesAbove _ _ _ (attrAddr p k) (by simp only [charAddr, attrAddr]; omega))
          (Nat.le_refl _)
      | some c =>
        simp [slotStores, Memory.read_cons, show charAddr p k ≠ attrAddr p k by
          simp only [charAddr, attrAddr]; omega]
    | succ j =>
      have := ih (k + 1) j (by simpa using h)
      rw [show k + 1 + j = k + (j + 1) by omega] at this
      cases slot with
      | none => simpa [slotStores] using this
      | some c =>
        simp only [slotStores, List.cons_append, List.nil_append, Memory.read_cons]
        rw [if_neg (by simp only [charAddr, attrAddr]; omega), if_neg (by simp only [attrAddr]; omega)]
        simpa using this

/-- The stores from slot `k` on put nothing at an address that is no byte of a staged slot. -/
theorem read_storesFrom_elsewhere (p : Params) (k : Nat) (slots : List Slot) (a : Nat)
    (h : ∀ (j : Nat) (hj : j < slots.length), slots[j].isSome = true →
      a ≠ charAddr p (k + j) ∧ a ≠ attrAddr p (k + j)) :
    Memory.read (storesFrom p k slots) a = none := by
  induction slots generalizing k with
  | nil => rfl
  | cons slot slots ih =>
    have rest := ih (k + 1) fun j hj hs => by
      rw [show k + 1 + j = k + (j + 1) by omega]
      exact h (j + 1) (by simpa using hj) (by simpa using hs)
    rw [storesFrom_cons]
    cases slot with
    | none => simpa [slotStores] using rest
    | some c =>
      have h0 : a ≠ charAddr p k ∧ a ≠ attrAddr p k := h 0 (by simp) rfl
      simp only [slotStores, List.cons_append, List.nil_append, Memory.read_cons]
      rw [if_neg (Ne.symm h0.1), if_neg (Ne.symm h0.2)]
      exact rest

/-- What a commit stores at a cell's character address. -/
theorem read_commitStores_charAddr (s : State) (i : Nat) (h : i < cells) :
    Memory.read (commitStores s) (charAddr s.params i) = s.back[i].map (·.ch) := by
  have := read_storesFrom_charAddr s.params 0 s.back.toList i (by simpa using h)
  rw [commitStores_eq_storesFrom]
  simpa using this

/-- What a commit stores at a cell's attribute address. -/
theorem read_commitStores_attrAddr (s : State) (i : Nat) (h : i < cells) :
    Memory.read (commitStores s) (attrAddr s.params i) = s.back[i].map (·.attr) := by
  have := read_storesFrom_attrAddr s.params 0 s.back.toList i (by simpa using h)
  rw [commitStores_eq_storesFrom]
  simpa using this

/-- A commit stores nothing at any other address. -/
theorem read_commitStores_elsewhere (s : State) (a : Nat)
    (h : ∀ (i : Nat) (h : i < cells), s.back[i].isSome = true →
      a ≠ charAddr s.params i ∧ a ≠ attrAddr s.params i) :
    Memory.read (commitStores s) a = none := by
  rw [commitStores_eq_storesFrom]
  refine read_storesFrom_elsewhere _ _ _ _ fun j hj hs => ?_
  have hj' : j < cells := by simpa using hj
  have := h j hj' (by simpa using hs)
  simpa using this

/-- Memory after a commit, at any address (41_scroll_commit.md R122). -/
theorem commitStaged_read (s : State) (h : Memory.wf s.mem = true) (a : Nat) :
    (commitStaged s).mem.read a = (Memory.read (commitStores s) a).or (s.mem.read a) := by
  rw [commitStaged_mem]
  exact Memory.read_storeRising (commitStores_rising s) h a

theorem commitStaged_wf (s : State) (h : Memory.wf s.mem = true) :
    Memory.wf (commitStaged s).mem = true := by
  rw [commitStaged_mem]
  exact Memory.storeRising_wf (commitStores_rising s) h

theorem commitStaged_front_getElem (s : State) (i : Nat) (h : i < cells) :
    (commitStaged s).front[i] = shown s.back[i] s.front[i] := by
  simp only [commitStaged_front, Grid.getElem_zipWith]

@[simp] theorem commitStaged_back_getElem (s : State) (i : Nat) (h : i < cells) :
    (commitStaged s).back[i] = none := by
  simp only [commitStaged_back, Vector.getElem_replicate]

theorem assertReset_back_getElem (s : State) (i : Nat) (h : i < cells) :
    (assertReset s).back[i] = some (blank s.params s.params.resetBg) := by
  simp only [assertReset_back, Vector.getElem_replicate]

end Sys2Proof.Machine
end

