-- ==== Sys2Proof/Laws/PerInstr.lean ====
section
/-! SUPPORT. Statements made for each instruction: every word has its opcode in bits 31:28 and zero in bits 27:24. -/

namespace Sys2Proof.Laws.CommonFields

/-- The OP column of the opcode map (30_encoding.md R86). -/
def opcode : Instr → BitVec 4
  | .putc _ _ => 0x1#4
  | .putat _ _ _ _ => 0x2#4
  | .setbg _ => 0x3#4
  | .setfg _ => 0x4#4
  | .scroll => 0x5#4
  | .commit => 0x6#4
  | .cursorOff => 0x7#4
  | .blinkToggle => 0x8#4

/-- In every format `w[31:28]` is the opcode and `w[27:24]` is zero (30_encoding.md R81). -/
def Statement (i : Instr) : Prop :=
  fieldOp (encode i) = opcode i ∧ (encode i).extractLsb' 24 4 = 0#4

theorem reserved_formatP (op : BitVec 4) (row : BitVec 5) (col : BitVec 7) (color : Color) (ch : Byte) :
    (formatP op row col color ch).extractLsb' 24 4 = 0#4 := by
  apply BitVec.eq_of_getLsbD_eq
  intro i hi
  rw [BitVec.getLsbD_extractLsb', getLsbD_formatP]
  simp (disch := omega) only [if_neg, if_pos, hi, decide_true, Bool.true_and, BitVec.getLsbD_zero]

theorem putc (ch : Byte) (color : Color) : Statement (.putc ch color) :=
  ⟨fieldOp_formatP .., reserved_formatP ..⟩

theorem putat (ch : Byte) (color : Color) (col row : Nat) : Statement (.putat ch color col row) :=
  ⟨fieldOp_formatP .., reserved_formatP ..⟩

theorem setbg (color : Color) : Statement (.setbg color) := by
  rw [Statement, encode, formatK_eq_formatP]
  exact ⟨fieldOp_formatP .., reserved_formatP ..⟩

theorem setfg (color : Color) : Statement (.setfg color) := by
  rw [Statement, encode, formatK_eq_formatP]
  exact ⟨fieldOp_formatP .., reserved_formatP ..⟩

theorem scroll : Statement .scroll := by unfold Statement; decide

theorem commit : Statement .commit := by unfold Statement; decide

theorem cursorOff : Statement .cursorOff := by unfold Statement; decide

theorem blinkToggle : Statement .blinkToggle := by unfold Statement; decide

end Sys2Proof.Laws.CommonFields
end

