-- ==== Sys2Proof/Laws/Step.lean ====
section
/-! SUPPORT. What a command and a step can do, said once: the inversion lemmas, and what each meaning answers. -/

namespace Sys2Proof.Machine

open Sys2Proof.Config

/-- PUTC from a cursor on the grid or pending, of a character: one next state. -/
theorem execPutc_character (s : State) (ch : Byte) (color : Color) (hc : ch ≠ newline)
    (h : (takePendingScroll s).cursor.toNat < cells) :
    execPutc ch color s =
      .next (advanceOne (stage ⟨(takePendingScroll s).cursor.toNat, h⟩ ch color (takePendingScroll s))) := by
  rw [execPutc, putAtCursor, if_neg hc, dif_pos h]

theorem execPutc_newline (s : State) (color : Color) :
    execPutc newline color s = .next (newlineAdvance (takePendingScroll s)) := by
  rw [execPutc, putAtCursor, if_pos rfl]

/-- Taking a pending scroll leaves a cursor on the grid, if the cursor was in its range. -/
theorem takePendingScroll_cursor_lt {s : State} (h : s.cursor.toNat ≤ cells) :
    (takePendingScroll s).cursor.toNat < cells := by
  by_cases hc : s.cursor.toNat = cells
  · rw [takePendingScroll_of_eq s hc, scroll_cursor_toNat]
    decide
  · rw [takePendingScroll_of_ne s hc]
    omega

/-- Everything PUTC can answer with a next state. -/
theorem execPutc_next {ch : Byte} {color : Color} {s t : State} (h : execPutc ch color s = .next t) :
    (ch = newline ∧ t = newlineAdvance (takePendingScroll s)) ∨
    (ch ≠ newline ∧ ∃ hlt : (takePendingScroll s).cursor.toNat < cells,
      t = advanceOne
        (stage ⟨(takePendingScroll s).cursor.toNat, hlt⟩ ch color (takePendingScroll s))) := by
  rw [execPutc, putAtCursor] at h
  split at h
  · exact .inl ⟨‹_›, (Host.Outcome.next.inj h).symm⟩
  · split at h
    · exact .inr ⟨‹_›, ‹_›, (Host.Outcome.next.inj h).symm⟩
    · cases h

/-- Everything PUTAT can do: it always answers a next state. -/
theorem execPutat_next {ch : Byte} {color : Color} {col row : Nat} {s t : State}
    (h : execPutat ch color col row s = .next t) :
    (∃ hg : InGrid col row, t = stage ⟨offset col row, offset_lt hg⟩ ch color s) ∨
    (¬ InGrid col row ∧ t = raiseError .range (encode (.putat ch color col row)) s) := by
  rw [execPutat] at h
  split at h
  · exact .inl ⟨‹_›, (Host.Outcome.next.inj h).symm⟩
  · exact .inr ⟨‹_›, (Host.Outcome.next.inj h).symm⟩

/-- COMMIT answers a next state exactly when the region fits. -/
theorem execCommit_next {s t : State} (h : execCommit s = .next t) :
    s.params.RegionFits ∧ t = commitStaged s := by
  rw [execCommit] at h
  split at h
  · exact ⟨‹_›, (Host.Outcome.next.inj h).symm⟩
  · cases h

/-- Everything a command can answer with a next state, one case for each command and branch. -/
theorem exec_next_cases {i : Instr} {s t : State} (h : exec i s = .next t) :
    (∃ color, i = .putc newline color ∧ t = newlineAdvance (takePendingScroll s)) ∨
    (∃ ch color, i = .putc ch color ∧ ch ≠ newline ∧
      ∃ hlt : (takePendingScroll s).cursor.toNat < cells,
        t = advanceOne
          (stage ⟨(takePendingScroll s).cursor.toNat, hlt⟩ ch color (takePendingScroll s))) ∨
    (∃ ch color col row, i = .putat ch color col row ∧
      ∃ hg : InGrid col row, t = stage ⟨offset col row, offset_lt hg⟩ ch color s) ∨
    (∃ ch color col row, i = .putat ch color col row ∧ ¬ InGrid col row ∧
      t = raiseError .range (encode i) s) ∨
    (∃ color, i = .setbg color ∧ t = repaintAll color s) ∨
    (∃ color, i = .setfg color ∧ t = { s with fg := color }) ∨
    (i = .scroll ∧ t = scroll s) ∨
    (i = .commit ∧ s.params.RegionFits ∧ t = commitStaged s) ∨
    (i = .cursorOff ∧ t = portWrite s.params.crtcData s.params.cursorDisableValue
      (portWrite s.params.crtcIndex s.params.crtcCursorStart s)) ∨
    (i = .blinkToggle ∧ t = blinkSequence (portDraw s.draws) (portDraw (s.draws + 1)) s) := by
  cases i with
  | putc ch color =>
    rcases execPutc_next h with ⟨rfl, ht⟩ | ⟨hc, hlt, ht⟩
    · exact .inl ⟨color, rfl, ht⟩
    · exact .inr (.inl ⟨ch, color, rfl, hc, hlt, ht⟩)
  | putat ch color col row =>
    rcases execPutat_next h with ⟨hg, ht⟩ | ⟨hg, ht⟩
    · exact .inr (.inr (.inl ⟨ch, color, col, row, rfl, hg, ht⟩))
    · exact .inr (.inr (.inr (.inl ⟨ch, color, col, row, rfl, hg, ht⟩)))
  | setbg color =>
    exact .inr (.inr (.inr (.inr (.inl ⟨color, rfl, (Host.Outcome.next.inj h).symm⟩))))
  | setfg color =>
    exact .inr (.inr (.inr (.inr (.inr (.inl ⟨color, rfl, (Host.Outcome.next.inj h).symm⟩)))))
  | scroll =>
    exact .inr (.inr (.inr (.inr (.inr (.inr (.inl ⟨rfl, (Host.Outcome.next.inj h).symm⟩))))))
  | commit =>
    exact .inr (.inr (.inr (.inr (.inr (.inr (.inr (.inl ⟨rfl, execCommit_next h⟩)))))))
  | cursorOff =>
    exact .inr (.inr (.inr (.inr (.inr (.inr (.inr (.inr (.inl
      ⟨rfl, (Host.Outcome.next.inj h).symm⟩))))))))
  | blinkToggle =>
    exact .inr (.inr (.inr (.inr (.inr (.inr (.inr (.inr (.inr
      ⟨rfl, (Host.Outcome.next.inj h).symm⟩))))))))

/-- No command moves the command index, the stream or the parameters: the step around it does. -/
theorem exec_next_frame {i : Instr} {s t : State} (h : exec i s = .next t) :
    t.ci = s.ci ∧ t.inputs = s.inputs ∧ t.params = s.params := by
  rcases exec_next_cases h with ⟨_, _, rfl⟩ | ⟨_, _, _, _, _, rfl⟩ | ⟨_, _, _, _, _, _, rfl⟩ |
    ⟨_, _, _, _, _, _, rfl⟩ | ⟨_, _, rfl⟩ | ⟨_, _, rfl⟩ | ⟨_, rfl⟩ | ⟨_, _, rfl⟩ | ⟨_, rfl⟩ |
    ⟨_, rfl⟩ <;> simp

/-- Everything a step can answer with a next state: idling, a reset, a rejected word, or a command that was run. -/
theorem step_next_cases {s t : State} (h : step s = .next t) :
    (s.inputs = [] ∧ t = s) ∨
    (∃ rest, s.inputs = .reset :: rest ∧ t = assertReset { s with inputs := rest }) ∨
    (∃ w rest why, s.inputs = .command w :: rest ∧ decode w = .illegal why ∧
      t = advanceIndex (raiseError .illegal w { s with inputs := rest })) ∨
    (∃ w rest i u, s.inputs = .command w :: rest ∧ decode w = .command i ∧
      exec i { s with inputs := rest } = .next u ∧ t = advanceIndex u) := by
  unfold step at h
  split at h
  · rename_i hi
    exact .inl ⟨hi, (Host.Outcome.next.inj h).symm⟩
  · rename_i w rest hi
    unfold runWord at h
    split at h
    · rename_i i hd
      cases he : exec i { s with inputs := rest } with
      | next u =>
        rw [he] at h
        exact .inr (.inr (.inr ⟨w, rest, i, u, hi, hd, he, (Host.Outcome.next.inj h).symm⟩))
      | fault f => rw [he] at h; cases h
      | refused r => rw [he] at h; cases h
    · rename_i why hd
      exact .inr (.inr (.inl ⟨w, rest, why, hi, hd, (Host.Outcome.next.inj h).symm⟩))
  · rename_i rest hi
    exact .inr (.inl ⟨rest, hi, (Host.Outcome.next.inj h).symm⟩)

theorem step_of_nil {s : State} (h : s.inputs = []) : step s = .next s := by
  unfold step; rw [h]

theorem step_of_reset {s : State} {rest : List Input} (h : s.inputs = .reset :: rest) :
    step s = .next (assertReset { s with inputs := rest }) := by
  unfold step; rw [h]

theorem step_of_word {s : State} {w : Word} {rest : List Input} (h : s.inputs = .command w :: rest) :
    step s = runWord w { s with inputs := rest } := by
  unfold step; rw [h]

theorem runWord_of_command {w : Word} {i : Instr} (h : decode w = .command i) (s : State) :
    runWord w s = retire (exec i s) := by
  unfold runWord; rw [h]

theorem runWord_of_illegal {w : Word} {why : Illegal} (h : decode w = .illegal why) (s : State) :
    runWord w s = .next (advanceIndex (raiseError .illegal w s)) := by
  unfold runWord; rw [h]; rfl

/-- Recording an error does to the record what 60_exceptions.md R172 says. -/
theorem recordsError_raiseError (k : Cause) (w : Word) (s : State) :
    RecordsError (causeCode k) w s (raiseError k w s) := by
  refine ⟨fun h => ?_, fun h => ?_, ?_, ?_⟩
  · simp [h]
  · simp [h]
  · cases k <;> simp [causeCode]
  · cases k <;> simp [causeCode]

theorem nothingButErrors_raiseError (k : Cause) (w : Word) (s : State) :
    NothingButErrors s (raiseError k w s) := by
  simp [NothingButErrors]

/-- PUTAT with coordinates in the grid: one next state (40_output.md R105). -/
theorem exec_putat_of_inGrid (s : State) (ch : Byte) (color : Color) {col row : Nat} (h : InGrid col row) :
    exec (.putat ch color col row) s = .next (stage ⟨offset col row, offset_lt h⟩ ch color s) := dif_pos h

/-- COMMIT completes whenever the region fits the address space (41_scroll_commit.md R122). -/
theorem exec_commit_of_fits {s : State} (h : s.params.RegionFits) :
    exec .commit s = .next (commitStaged s) := if_pos h

/-- A COMMIT leaves a staged cell in the region (41_scroll_commit.md R122). -/
theorem commitStaged_storedCell_of_staged {s : State} (hw : Memory.wf s.mem = true) {i : Nat}
    (h : i < cells) {c : Cell} (hc : s.back[i] = some c) : storedCell i (commitStaged s) = some c := by
  have h1 := commitStaged_read s hw (charAddr s.params i)
  have h2 := commitStaged_read s hw (attrAddr s.params i)
  rw [read_commitStores_charAddr s i h, hc] at h1
  rw [read_commitStores_attrAddr s i h, hc] at h2
  rw [storedCell, commitStaged_params, h1, h2]
  rfl

/-- PUTC of a character with the cursor off the grid stops (assumption 6). -/
theorem exec_putc_offGrid {s : State} {ch : Byte} (color : Color) (hc : ch ≠ newline)
    (h : cells < s.cursor.toNat) : exec (.putc ch color) s = .fault .cursorOffGrid := by
  show execPutc ch color s = _
  rw [execPutc, takePendingScroll_of_ne s (by omega), putAtCursor, if_neg hc, dif_neg (by omega)]

theorem runCommands_nil (s : State) : runCommands [] s = .next s := rfl

/-- A command that completes, and then the rest of the list. -/
theorem runCommands_cons {i : Instr} {s u : State} (h : exec i s = .next u) (rest : List Instr) :
    runCommands (i :: rest) s = runCommands rest (advanceIndex u) := by
  simp only [runCommands, h, retire]

end Sys2Proof.Machine
end

