-- ==== Sys2Proof/Tests/Slice0.lean ====
section
/-! SUPPORT. Tests of well-formedness, decoding and single steps, with expected results from
spec/95_test_vectors.md, and one witness for each statement that has hypotheses. -/

namespace Sys2Proof.Tests

open Sys2Proof Sys2Proof.Machine Sys2Proof.Config

/-! ## States the tests start from -/

/-- The reset state with a mirror of blank cells in place of the free value. -/
def afterReset : State := { State.reset with front := Vector.replicate cells ⟨0x20#8, 0x07#8⟩ }

/-- A slot array with nothing staged but what the list names. -/
def staged (slots : List (Nat × Cell)) : Vector Slot cells :=
  slots.foldl (fun v c => v.setIfInBounds c.1 (some c.2)) (Vector.replicate cells none)

/-- The state after `w` from `s`, as a step delivers and runs it. -/
def after (s : State) (w : Nat) : Option State :=
  match step (s.withFetchWord 32 w) with
  | .next t => some t
  | _ => none

/-- `w` runs from `s` to a state the check accepts. -/
def runs (s : State) (w : Nat) (check : State → Bool) : Bool := (after s w).any check

/-- The cell a slot holds is this one. -/
def slotIs (s : State) (i : Nat) (ch attr : Byte) : Bool := s.back[i]? == some (some ⟨ch, attr⟩)

/-! ## Well-formedness: each check refuses an ill-formed command -/

theorem test_wellFormed_refuses_col : (Instr.putat 0x41#8 0xF#4 128 0).wellFormed = false := by decide

theorem test_wellFormed_refuses_row : (Instr.putat 0x41#8 0xF#4 0 32).wellFormed = false := by decide

theorem test_wellFormed_accepts_the_largest_fields :
    (Instr.putat 0xFF#8 0xF#4 127 31).wellFormed = true := by decide

/-! ## Decoding: words written out from the format tables of 30_encoding.md R82 to R84 -/

/-- OP 0x1, bits 27:12 zero, COLOR 0x2, CH 0x41. -/
theorem test_decode_putc :
    decode (0b0001#4 ++ 0b0000#4 ++ 0b00000#5 ++ 0b0000000#7 ++ 0b0010#4 ++ 0b01000001#8) =
      .command (.putc 0x41#8 0x2#4) := by decide

/-- OP 0x2, bits 27:24 zero, ROW 24, COL 79, COLOR 0xE, CH 0x5A: the word 0x20C4FE5A. -/
theorem test_decode_putat :
    decode (0b0010#4 ++ 0b0000#4 ++ 0b11000#5 ++ 0b1001111#7 ++ 0b1110#4 ++ 0b01011010#8) =
      .command (.putat 0x5A#8 0xE#4 79 24) ∧ decode 0x20C4FE5A#32 = .command (.putat 0x5A#8 0xE#4 79 24) := by
  decide

theorem test_decode_setbg : decode 0x30000100#32 = .command (.setbg 0x1#4) := by decide

theorem test_decode_setfg : decode 0x40000F00#32 = .command (.setfg 0xF#4) := by decide

theorem test_decode_scroll : decode 0x50000000#32 = .command .scroll := by decide

theorem test_decode_commit : decode 0x60000000#32 = .command .commit := by decide

theorem test_decode_cursorOff : decode 0x70000000#32 = .command .cursorOff := by decide

theorem test_decode_blinkToggle : decode 0x80000000#32 = .command .blinkToggle := by decide

/-- The ILLEGAL rows of the decode vectors. -/
theorem test_decode_reservedBits :
    [0x10001041#32, 0x11000041#32, 0x2FFFFFFF#32, 0x30000101#32, 0x40000401#32, 0x50000001#32,
      0x80000080#32].all (fun w => decide (decode w = .illegal .reservedBits)) = true := by decide

theorem test_decode_reservedOpcodes :
    [0x00000000#32, 0x90000000#32, 0xF0000000#32].all
      (fun w => decide (decode w = .illegal .reservedOpcode)) = true := by decide

/-- The words of V-PUTC-1, V-PUTAT-6 and V-PUTAT-4. -/
theorem test_encode :
    encode (.putc 0x41#8 0x2#4) = 0x10000241#32 ∧ encode (.putat 0x0A#8 0xF#4 5 2) = 0x20105F0A#32 ∧
      encode (.putat 0x41#8 0xF#4 0 25) = 0x20C80F41#32 := by decide

theorem test_decodeTableWord :
    decodeTableWord 32 0x10000241 = some (.putc 0x41#8 0x2#4) ∧ decodeTableWord 32 0x90000000 = none := by
  decide

/-! ## Single steps -/

/-- V-PUTC-10: a newline under a pending scroll scrolls twice. Cells marked in rows 1, 2 and 3 show how far
the content moves. -/
theorem test_putc_newline_under_pending_scroll :
    runs { afterReset with cursor := 2000#11,
                           back := staged [(83, ⟨0x51#8, 0x0A#8⟩), (165, ⟨0x52#8, 0x0B#8⟩),
                             (240, ⟨0x53#8, 0x0C#8⟩)] } 0x1000000A
      (fun t => t.cursor == 1920#11 && slotIs t 5 0x52#8 0x0B#8 && slotIs t 80 0x53#8 0x0C#8 &&
        slotIs t 3 0x20#8 0x07#8 && slotIs t 1999 0x20#8 0x07#8) = true := by
  decide +kernel

/-- V-PUTC-11: the current background, and byte 0x00 as a character. -/
theorem test_putc_stages_with_the_background :
    runs { afterReset with cursor := 5#11, bg := 0xC#4 } 0x10000900
      (fun t => slotIs t 5 0x00#8 0xC9#8 && slotIs t 4 0x20#8 0x07#8 && slotIs t 6 0x20#8 0x07#8 &&
        t.cursor == 6#11 && t.ci == 1) = true := by
  decide +kernel

/-- V-PUTAT-2. -/
theorem test_putat_stages_at_its_offset :
    runs { afterReset with bg := 0x1#4 } 0x20C4FE5A
      (fun t => slotIs t 1999 0x5A#8 0x1E#8 && slotIs t 1998 0x20#8 0x07#8 && t.cursor == 0#11) = true := by
  decide +kernel

/-- V-PUTAT-3: column 80 of row 0 is not column 0 of row 1. -/
theorem test_putat_outside_the_grid :
    runs afterReset 0x20050F41
      (fun t => readRegister 0#8 t == 0x00000021#32 && readRegister 3#8 t == 0x20050F41#32 &&
        slotIs t 80 0x20#8 0x07#8 && t.ci == 1) = true := by
  decide +kernel

/-- V-BG-2. -/
theorem test_setbg_repaints_staged_and_mirrored_cells :
    runs { afterReset with back := staged [(0, ⟨0x41#8, 0x02#8⟩)],
                           front := afterReset.front.setIfInBounds 1 ⟨0x42#8, 0x3F#8⟩ } 0x30000800
      (fun t => slotIs t 0 0x41#8 0x82#8 && slotIs t 1 0x42#8 0x8F#8 && slotIs t 1999 0x20#8 0x87#8 &&
        t.front[1]? == some ⟨0x42#8, 0x3F#8⟩ && t.bg == 0x8#4) = true := by
  decide +kernel

/-- V-FG-1. -/
theorem test_setfg :
    runs afterReset 0x40000400
      (fun t => t.fg == 0x4#4 && slotIs t 0 0x20#8 0x07#8 && readRegister 2#8 t == 0x00000004#32) = true := by
  decide +kernel

/-- V-SCR-2. -/
theorem test_scroll_reconciles_with_the_mirror :
    runs { afterReset with back := staged [(85, ⟨0x41#8, 0x0F#8⟩)],
                           front := (afterReset.front.setIfInBounds 100 ⟨0x58#8, 0x04#8⟩).setIfInBounds 5
                             ⟨0x59#8, 0x02#8⟩ } 0x50000000
      (fun t => slotIs t 5 0x41#8 0x0F#8 && slotIs t 20 0x58#8 0x04#8 && slotIs t 85 0x20#8 0x07#8 &&
        slotIs t 1920 0x20#8 0x07#8 && t.cursor == 1920#11 && t.front[5]? == some ⟨0x59#8, 0x02#8⟩) = true := by
  decide +kernel

/-- V-COM-2: the four stores, in order, at addresses 0xB8000, 0xB8001, 0xB8F9E and 0xB8F9F. -/
theorem test_commit_stores_staged_cells :
    runs { afterReset with back := staged [(0, ⟨0x41#8, 0x02#8⟩), (1999, ⟨0x5A#8, 0x1E#8⟩)] } 0x60000000
      (fun t => t.history == [.memWrite 0xB8000 0x41#8, .memWrite 0xB8001 0x02#8, .memWrite 0xB8F9E 0x5A#8,
          .memWrite 0xB8F9F 0x1E#8] &&
        t.mem == [(0xB8000, 0x41#8), (0xB8001, 0x02#8), (0xB8F9E, 0x5A#8), (0xB8F9F, 0x1E#8)] &&
        t.front[1999]? == some ⟨0x5A#8, 0x1E#8⟩ && t.front[1]? == some ⟨0x20#8, 0x07#8⟩ &&
        t.back.toList.all Option.isNone) = true := by
  decide +kernel

/-- V-COM-1: with nothing staged, nothing happens. -/
theorem test_commit_with_nothing_staged :
    runs { afterReset with back := staged [], mem := [(0xB8000, 0x41#8)] } 0x60000000
      (fun t => t.history == [] && t.mem == [(0xB8000, 0x41#8)] && t.front[0]? == some ⟨0x20#8, 0x07#8⟩) = true := by
  decide +kernel

/-- V-PORT-1. -/
theorem test_cursorOff :
    runs afterReset 0x70000000
      (fun t => t.history == [.portWrite 0x3D4#16 0x0A#8, .portWrite 0x3D5#16 0x20#8]) = true := by
  decide +kernel

/-- V-PORT-2, for the draws 0x00 and 0x0C. -/
theorem test_blinkToggle :
    (blinkSequence 0x00#8 0x0C#8 afterReset).history =
      [.portRead 0x3DA#16 0x00#8, .portWrite 0x3C0#16 0x30#8, .portRead 0x3C1#16 0x0C#8,
        .portWrite 0x3C0#16 0x04#8] := by
  decide

/-- V-PORT-4: the last write for the draw 0xFF. -/
theorem test_blinkToggle_keeps_the_other_bits :
    (blinkSequence 0x00#8 0xFF#8 afterReset).history.getLast? = some (.portWrite 0x3C0#16 0xF7#8) := by
  decide

/-- V-ERR-4: ILLEGAL, not RANGE. -/
theorem test_illegal_word :
    runs afterReset 0x2FFFFFFF
      (fun t => readRegister 0#8 t == 0x00000012#32 && readRegister 3#8 t == 0x2FFFFFFF#32 && t.ci == 1) =
      true := by
  decide +kernel

/-- V-ERR-2: the second error only sets its bit. -/
theorem test_second_error :
    runs { afterReset with errIllegal := true, errCause := 1#2, errWord := 0x90000000#32 } 0x20C80F41
      (fun t => readRegister 0#8 t == 0x00000013#32 && readRegister 3#8 t == 0x90000000#32) = true := by
  decide +kernel

/-- V-REG-1. -/
theorem test_registers_after_reset :
    (readRegister 0#8 afterReset, readRegister 1#8 afterReset, readRegister 2#8 afterReset,
      readRegister 4#8 afterReset, readRegister 255#8 afterReset) =
      (0x00000000#32, 0x00000000#32, 0x0000000F#32, 0x00000000#32, 0x00000000#32) := by
  decide

/-- The examples of 40_output.md R100 and the pack vectors. -/
theorem test_pack : pack 0x1#4 0xE#4 = 0x1E#8 ∧ pack 0x8#4 0x7#4 = 0x87#8 ∧ pack 0xF#4 0x0#4 = 0xF0#8 := by
  decide

/-- A store below, at, and above what is listed keeps the addresses rising. -/
theorem test_memory_write :
    Memory.write (Memory.write (Memory.write [(5, 0x01#8)] 9 0x02#8) 2 0x03#8) 5 0x04#8 =
      [(2, 0x03#8), (5, 0x04#8), (9, 0x02#8)] := by
  decide

/-- L1-7: PUTS "AB" in Green. -/
theorem test_puts :
    assembleLine (.puts [0x41#8, 0x42#8] (.name .green)) = some [0x10000241#32, 0x10000242#32] := by decide

/-- PUTAT 'A', White, 80, 0 assembles; a column of 128 does not. -/
theorem test_assemble_putat :
    assembleLine (.putat 0x41 (.name .white) 80 0) = some [0x20050F41#32] ∧
      assembleLine (.putat 0x41 (.name .white) 128 0) = none := by decide

/-! ## Witnesses: for each statement with hypotheses, a state and operands that meet them -/

/-- `afterReset` with one move of the host waiting. -/
def ready (x : Input) : State := { afterReset with inputs := [x] }

/-- `ready` for a command word. -/
def readyFor (w : Word) : State := ready (.command w)

/-- `afterReset` with the cursor at `c` and a command word waiting. -/
def readyAt (c : BitVec 11) (w : Word) : State := { readyFor w with cursor := c }

/-- `afterReset` with both error bits set and the reset signal waiting. -/
def errorsThenReset : State :=
  { ready .reset with errRange := true, errIllegal := true, errCause := 1#2, errWord := 0x90000000#32 }

/-- The state after a first COMMIT of the whole grid, with a command word waiting. -/
def committed (w : Word) : State := { commitStaged (readyFor w) with inputs := [.command w] }

theorem step_word {s t : State} {w : Word} {i : Instr} (hs : s.inputs = [.command w])
    (hd : decode w = .command i) (he : exec i { s with inputs := [] } = .next t) :
    step s = .next (advanceIndex t) := by
  rw [step_of_word hs, runWord_of_command hd, he]
  rfl

theorem step_setfg (c : BitVec 11) :
    step (readyAt c 0x40000F00#32) =
      .next (advanceIndex { { readyAt c 0x40000F00#32 with inputs := [] } with fg := 0xF#4 }) :=
  step_word (i := .setfg 0xF#4) rfl (by decide) rfl

theorem fits : defaults.RegionFits := by decide

theorem step_commit :
    step (readyFor 0x60000000#32) =
      .next (advanceIndex (commitStaged { readyFor 0x60000000#32 with inputs := [] })) :=
  step_word (i := .commit) rfl (by decide) (exec_commit_of_fits fits)

theorem step_offGrid : step (readyAt 2001#11 0x10000241#32) = .fault .cursorOffGrid := by
  rw [step_of_word (rest := []) rfl, runWord_of_command (i := .putc 0x41#8 0x2#4) (by decide),
    exec_putc_offGrid _ (by decide) (by decide)]
  rfl

theorem afterReset_allStaged (i : Nat) (h : i < cells) : afterReset.back[i].isSome = true := by
  have : afterReset.back[i] = some (blank defaults defaults.resetBg) :=
    Vector.getElem_replicate h
  rw [this]
  rfl

/-- Every slot is staged, so the agreement of mirror and region is not in question yet. -/
theorem ready_invariant (x : Input) : Invariant (ready x) where
  params := show defaults.WellFormed by decide
  cursor := show (0#11).toNat ≤ cells by decide
  errors := ⟨by simp [ready, afterReset, State.reset], by simp [ready, afterReset, State.reset],
    by simp [ready, afterReset, State.reset], by simp [ready, afterReset, State.reset],
    by simp [ready, afterReset, State.reset]⟩
  memory := rfl
  region := fun _ h => absurd rfl h
  mirror := fun i h hn => by
    have := afterReset_allStaged i h
    rw [show afterReset.back[i] = (ready x).back[i] from rfl, hn] at this
    cases this

theorem witness_DecodingFollowsTheOpcodeMap :
    0x10000FFF#32 &&& 0xFFFFF000#32 = 0x10000000#32 ∧ 0x20FFFFFF#32 &&& 0xFF000000#32 = 0x20000000#32 ∧
    0x30000F00#32 &&& 0xFFFFF0FF#32 = 0x30000000#32 ∧ 0x40000F00#32 &&& 0xFFFFF0FF#32 = 0x40000000#32 ∧
    [0x10001000#32, 0x21000000#32, 0x30000001#32, 0x40001000#32, 0x00000000#32, 0x90000000#32].all (fun w =>
      w &&& 0xFFFFF000#32 != 0x10000000#32 && w &&& 0xFF000000#32 != 0x20000000#32 &&
      w &&& 0xFFFFF0FF#32 != 0x30000000#32 && w &&& 0xFFFFF0FF#32 != 0x40000000#32 && w != 0x50000000#32 &&
      w != 0x60000000#32 && w != 0x70000000#32 && w != 0x80000000#32) = true := by
  decide

theorem witness_EncodedFieldsStandWhereTheFormatsPutThem : (127 : Nat) < 128 ∧ (31 : Nat) < 32 := by decide

theorem witness_DecodeOfEncode : (Instr.putat 0xFF#8 0xF#4 127 31).wellFormed = true := by decide

theorem witness_EncodeOfDecode : decode 0x20FFFFFF#32 = .command (.putat 0xFF#8 0xF#4 127 31) := by decide

theorem witness_StepRunsTheDecodedCommand :
    (readyFor 0x20FFFFFF#32).inputs = .command 0x20FFFFFF#32 :: [] ∧
      decode 0x20FFFFFF#32 = .command (.putat 0xFF#8 0xF#4 127 31) := ⟨rfl, by decide⟩

theorem witness_IdleKeepsTheState : afterReset.inputs = [] := rfl

theorem witness_ReservedBitsAreRejected :
    (∀ w, (readyFor w).inputs = .command w :: []) ∧
    (0x10001041#32).extractLsb 31 28 = 0x1#4 ∧ 0x10001041#32 &&& 0x0FFFF000#32 ≠ 0#32 ∧
    (0x2FFFFFFF#32).extractLsb 31 28 = 0x2#4 ∧ 0x2FFFFFFF#32 &&& 0x0F000000#32 ≠ 0#32 ∧
    (0x30000101#32).extractLsb 31 28 = 0x3#4 ∧ 0x30000101#32 &&& 0x0FFFF0FF#32 ≠ 0#32 ∧
    (0x40000401#32).extractLsb 31 28 = 0x4#4 ∧ 0x40000401#32 &&& 0x0FFFF0FF#32 ≠ 0#32 ∧
    (0x50000001#32).extractLsb 31 28 = 0x5#4 ∧ 0x50000001#32 &&& 0x0FFFFFFF#32 ≠ 0#32 ∧
    (0x60000100#32).extractLsb 31 28 = 0x6#4 ∧ 0x60000100#32 &&& 0x0FFFFFFF#32 ≠ 0#32 ∧
    (0x78000000#32).extractLsb 31 28 = 0x7#4 ∧ 0x78000000#32 &&& 0x0FFFFFFF#32 ≠ 0#32 ∧
    (0x80000080#32).extractLsb 31 28 = 0x8#4 ∧ 0x80000080#32 &&& 0x0FFFFFFF#32 ≠ 0#32 ∧
    decode 0x30000100#32 = .command (.setbg 0x1#4) := by
  refine ⟨fun _ => rfl, ?_⟩
  decide

theorem witness_ReservedOpcodesAreRejected :
    (readyFor 0x90000000#32).inputs = .command 0x90000000#32 :: [] ∧
    (0x00000000#32).extractLsb 31 28 = 0x0#4 ∧ 0x9 ≤ ((0x90000000#32).extractLsb 31 28).toNat ∧
    0x9 ≤ ((0xF0000000#32).extractLsb 31 28).toNat := ⟨rfl, by decide⟩

theorem raises_illegal : Raises 0x90000000#32 1#2 := .inl ⟨rfl, .reservedOpcode, by decide⟩

theorem raises_range : Raises 0x20C80F41#32 2#2 :=
  .inr ⟨rfl, 0x41#8, 0xF#4, 0, 25, by decide, by decide⟩

theorem witness_RejectionHasNoOtherEffect :
    (readyFor 0x90000000#32).inputs = .command 0x90000000#32 :: [] ∧ Raises 0x90000000#32 1#2 ∧
    (readyFor 0x20C80F41#32).inputs = .command 0x20C80F41#32 :: [] ∧ Raises 0x20C80F41#32 2#2 :=
  ⟨rfl, raises_illegal, rfl, raises_range⟩

theorem not_reset_readyAt (c : BitVec 11) (w : Word) : ¬ NextIsReset (readyAt c w) := by
  rintro ⟨rest, h⟩
  cases h

theorem witness_ErrorRecordIsStickyUntilReset :
    (∃ t, step (readyAt 0#11 0x40000F00#32) = .next t) ∧ ¬ NextIsReset (readyAt 0#11 0x40000F00#32) :=
  ⟨⟨_, step_setfg 0#11⟩, not_reset_readyAt _ _⟩

theorem witness_IllegalHasPriorityOverRange :
    Raises 0x90000000#32 1#2 ∧ (readyFor 0x2FFFFFFF#32).inputs = .command 0x2FFFFFFF#32 :: [] ∧
      decode 0x2FFFFFFF#32 = .illegal .reservedBits :=
  ⟨raises_illegal, rfl, by decide⟩

theorem witness_ErrorRecordIsNotRead :
    (∃ t, step (readyAt 0#11 0x40000F00#32) = .next t) ∧
      step (readyAt 2001#11 0x10000241#32) = .fault .cursorOffGrid :=
  ⟨⟨_, step_setfg 0#11⟩, step_offGrid⟩

theorem witness_CommandIndexCountsCommands :
    (∃ t, step (readyAt 0#11 0x40000F00#32) = .next t) ∧
      NextIsWord (readyAt 0#11 0x40000F00#32) 0x40000F00#32 ∧
      (∃ t, step errorsThenReset = .next t) ∧ NextIsReset errorsThenReset ∧
      (∃ t, step afterReset = .next t) ∧ afterReset.inputs = [] :=
  ⟨⟨_, step_setfg 0#11⟩, ⟨[], rfl⟩, ⟨_, step_of_reset rfl⟩, ⟨[], rfl⟩, ⟨_, step_of_nil rfl⟩, rfl⟩

/-- One reset meets all three ways the record can be cleared. -/
theorem witness_ResetSetsTheBlockState :
    errorsThenReset.inputs = .reset :: [] ∧ ∃ t, step errorsThenReset = .next t ∧
      (errorsThenReset.errCause ≠ 0#2 ∧ t.errCause ≠ errorsThenReset.errCause) ∧
      (errorsThenReset.errRange = true ∧ t.errRange = false) ∧
      (errorsThenReset.errIllegal = true ∧ t.errIllegal = false) :=
  ⟨rfl, _, step_of_reset rfl, ⟨by simp [errorsThenReset], by simp [errorsThenReset]⟩, ⟨rfl, rfl⟩, rfl, rfl⟩

theorem witness_ResetTouchesNothingOutside :
    (∃ t, step errorsThenReset = .next t) ∧ NextIsReset errorsThenReset ∧
      ¬ NextIsCommand errorsThenReset .commit :=
  ⟨⟨_, step_of_reset rfl⟩, ⟨[], rfl⟩, fun ⟨_, ⟨_, h⟩, _⟩ => by cases h⟩

theorem witness_PutcStagesAndAdvances :
    (readyAt 0#11 0#32).cursor.toNat < cells ∧ (readyAt 1999#11 0#32).cursor.toNat < cells ∧
      (0x00#8 : Byte) ≠ 0x0A#8 := by decide

theorem witness_PutcNewlineMovesToTheNextRow :
    (readyAt 0#11 0#32).cursor.toNat < lastRowStart ∧ (readyAt 1919#11 0#32).cursor.toNat < lastRowStart := by
  decide

theorem witness_PutcNewlineInTheLastRowScrollsOnce :
    lastRowStart ≤ (readyAt 1920#11 0#32).cursor.toNat ∧ (readyAt 1920#11 0#32).cursor.toNat ≠ cells ∧
      lastRowStart ≤ (readyAt 1999#11 0#32).cursor.toNat ∧ (readyAt 1999#11 0#32).cursor.toNat ≠ cells := by
  decide

theorem witness_PutcTakesThePendingScrollFirst :
    (readyAt 2000#11 0#32).cursor.toNat = cells ∧ (0x00#8 : Byte) ≠ 0x0A#8 := by decide

theorem witness_PutcCompletes :
    (readyAt 0#11 0#32).cursor.toNat ≤ cells ∧ (readyAt 2000#11 0#32).cursor.toNat ≤ cells := by decide

theorem witness_PutatStagesAtItsOffset : 79 < cols ∧ 24 < rows := by decide

theorem witness_PutatOutsideTheGridRecordsRange : (cols ≤ 80 ∨ rows ≤ 0) ∧ (cols ≤ 0 ∨ rows ≤ 25) := by decide

theorem witness_OffsetsAreRowMajor : 79 < cols ∧ 24 < rows ∧ offset 79 24 = offset 79 24 ∧ 1999 < cells := by
  decide

theorem witness_CursorArithmeticNeverWraps :
    (readyAt 1999#11 0#32).cursor.toNat < cells ∧ (readyAt 1919#11 0#32).cursor.toNat < lastRowStart := by
  decide

theorem witness_CharactersThatFitNeverScroll :
    (∀ ch ∈ [0x41#8, 0x42#8], ch ≠ 0x0A#8) ∧
      (readyAt 1998#11 0#32).cursor.toNat + [0x41#8, 0x42#8].length ≤ cells := by decide

theorem witness_ScrollMovesRowsUp : 0 + cols < cells ∧ 1919 + cols < cells ∧ 1920 < cells ∧ cells - cols ≤ 1920 := by
  decide

theorem witness_CommitEmitsStagedCells :
    afterReset.params.vramBase + 2 * cells - 1 < 2 ^ afterReset.params.paddrBits :=
  fits

/-- A state with one staged slot; the byte after its two is not stored. -/
def oneStaged : State := { afterReset with back := staged [(7, ⟨0x41#8, 0x02#8⟩)] }

theorem oneStaged_back (i : Nat) (h : i < cells) :
    oneStaged.back[i] = if 7 = i then some ⟨0x41#8, 0x02#8⟩ else none := by
  simp [oneStaged, staged, Vector.getElem_setIfInBounds]

theorem oneStaged_commit : exec .commit oneStaged = .next (commitStaged oneStaged) :=
  exec_commit_of_fits fits

theorem witness_UnwrittenBytesKeepTheirValue :
    Memory.wf oneStaged.mem = true ∧ (∃ t, exec .commit oneStaged = .next t) ∧
      (∃ (i : Nat) (h : i < cells) (c : Cell), oneStaged.back[i] = some c) ∧
      (∀ (i : Nat) (h : i < cells), oneStaged.back[i].isSome = true →
        oneStaged.params.vramBase + 16 ≠ oneStaged.params.vramBase + 2 * i ∧
        oneStaged.params.vramBase + 16 ≠ oneStaged.params.vramBase + 2 * i + 1) := by
  refine ⟨rfl, ⟨_, oneStaged_commit⟩, ⟨7, by decide, _, oneStaged_back 7 _⟩, fun i h hs => ?_⟩
  rw [oneStaged_back i h] at hs
  split at hs
  · omega
  · cases hs

theorem commit_agrees {s : State} (hw : Memory.wf s.mem = true) (ha : AllStaged s) (l : List Input) :
    MirrorAgrees { commitStaged s with inputs := l } := by
  intro i h
  obtain ⟨c, hc⟩ := Option.isSome_iff_exists.1 (ha i h)
  refine (commitStaged_storedCell_of_staged hw h hc).trans (congrArg some ?_)
  refine Eq.trans ?_ (commitStaged_front_getElem s i h).symm
  rw [hc]
  rfl

theorem commit_invariant {s : State} (hs : Invariant s) (ha : AllStaged s) (hm : s.mem = []) (l : List Input) :
    Invariant { commitStaged s with inputs := l } where
  params := hs.params
  cursor := hs.cursor
  errors := ⟨hs.errors.none_iff, hs.errors.illegal, hs.errors.range, hs.errors.notReserved, hs.errors.word⟩
  memory := commitStaged_wf s hs.memory
  region := fun a h => by
    by_contra hr
    refine h ((commitStaged_read s hs.memory a).trans ?_)
    rw [read_commitStores_elsewhere, hm]
    · rfl
    · intro i hi _
      have hi' : i < 2000 := hi
      have e : cells = 2000 := rfl
      have hr' : ¬ (inRegion s.params a = true) := hr
      simp only [inRegion, e, Bool.and_eq_true, decide_eq_true_eq] at hr'
      simp only [charAddr, attrAddr]
      omega
  mirror := fun i h _ => commit_agrees hs.memory ha l i h

/-- A state with nothing staged: after the first COMMIT since reset. -/
theorem committed_invariant (w : Word) : Invariant (committed w) :=
  commit_invariant (ready_invariant (.command w)) afterReset_allStaged rfl [.command w]

theorem committed_agrees (w : Word) : MirrorAgrees (committed w) :=
  commit_agrees (ready_invariant (.command w)).memory afterReset_allStaged [.command w]

/-- `committed`, and then one cell staged. -/
def oneMore (w : Word) : State := { committed w with back := staged [(7, ⟨0x41#8, 0x02#8⟩)] }

theorem restage_invariant {s : State} (hs : Invariant s) (ha : MirrorAgrees s) (b : Vector Slot cells) :
    Invariant { s with back := b } where
  params := hs.params
  cursor := hs.cursor
  errors := ⟨hs.errors.none_iff, hs.errors.illegal, hs.errors.range, hs.errors.notReserved, hs.errors.word⟩
  memory := hs.memory
  region := hs.region
  mirror := fun i h _ => ha i h

theorem oneMore_invariant (w : Word) : Invariant (oneMore w) :=
  restage_invariant (committed_invariant w) (committed_agrees w) _

theorem oneMore_back (w : Word) (i : Nat) (h : i < cells) : (oneMore w).back[i] = oneStaged.back[i] := rfl

theorem witness_CommitLaws :
    Invariant (oneMore 0x60000000#32) ∧
      (oneMore 0x60000000#32).back[7]'(by decide) ≠ none ∧
      (oneMore 0x60000000#32).back[8]'(by decide) = none := by
  refine ⟨oneMore_invariant _, ?_, ?_⟩
  · rw [oneMore_back, oneStaged_back]
    exact Option.some_ne_none _
  · rw [oneMore_back, oneStaged_back]
    rfl

theorem witness_WhereCommandsStop :
    cells < (readyAt 2001#11 0#32).cursor.toNat ∧ (0x41#8 : Byte) ≠ 0x0A#8 ∧
      2 ^ { defaults with paddrBits := 19 }.paddrBits ≤ { defaults with paddrBits := 19 }.vramBase + 2 * cells - 1 := by
  decide

theorem nextIsCommit : NextIsCommand (readyFor 0x60000000#32) .commit := ⟨_, ⟨[], rfl⟩, by decide⟩

theorem not_commit_readyAt (c : BitVec 11) : ¬ NextIsCommand (readyAt c 0x40000F00#32) .commit := by
  rintro ⟨w, ⟨rest, h⟩, hd⟩
  cases h
  revert hd
  decide

theorem witness_OnlyCommitStoresAndOnlyInTheRegion :
    ∃ t, step (readyFor 0x60000000#32) = .next t ∧
      ∃ a v, Event.memWrite a v ∈ t.history := by
  refine ⟨_, step_commit, 0xB8000, 0x20#8, ?_⟩
  have h : (commitStores { readyFor 0x60000000#32 with inputs := [] }).head? = some (0xB8000, 0x20#8) := by
    decide +kernel
  exact List.mem_append_right _ (List.mem_map.2 ⟨_, List.mem_of_head? h, rfl⟩)

theorem witness_TheRegionIsNeverRead :
    (∃ t, step (readyFor 0x60000000#32) = .next t) ∧
      step (readyAt 2001#11 0x10000241#32) = .fault .cursorOffGrid :=
  ⟨⟨_, step_commit⟩, step_offGrid⟩

theorem witness_FirstCommitAfterResetStoresEveryCell :
    (∃ t, step errorsThenReset = .next t) ∧ NextIsReset errorsThenReset ∧
      AllStaged (readyAt 0#11 0x40000F00#32) ∧ (∃ t, step (readyAt 0#11 0x40000F00#32) = .next t) ∧
      ¬ NextIsCommand (readyAt 0#11 0x40000F00#32) .commit ∧ (readyAt 0#11 0x40000F00#32).params.RegionFits :=
  ⟨⟨_, step_of_reset rfl⟩, ⟨[], rfl⟩, afterReset_allStaged, ⟨_, step_setfg 0#11⟩, not_commit_readyAt _, fits⟩

theorem step_committed :
    step (committed 0x40000F00#32) =
      .next (advanceIndex { { committed 0x40000F00#32 with inputs := [] } with fg := 0xF#4 }) :=
  step_word (i := .setfg 0xF#4) rfl (by decide) rfl

theorem witness_MirrorAgreement :
    (Invariant (readyFor 0x60000000#32) ∧ (∃ t, step (readyFor 0x60000000#32) = .next t) ∧
      NextIsCommand (readyFor 0x60000000#32) .commit) ∧
    (Invariant (committed 0x40000F00#32) ∧ MirrorAgrees (committed 0x40000F00#32) ∧
      (∃ t, step (committed 0x40000F00#32) = .next t) ∧ ¬ NextIsReset (committed 0x40000F00#32)) ∧
    AllStaged (readyFor 0x60000000#32) :=
  ⟨⟨ready_invariant _, ⟨_, step_commit⟩, nextIsCommit⟩,
    ⟨committed_invariant _, committed_agrees _, ⟨_, step_committed⟩, fun ⟨_, h⟩ => by cases h⟩,
    afterReset_allStaged⟩

/-- Two states whose mirrors differ under staged slots. -/
theorem witness_HiddenMirrorCellsStayUnobservable :
    SameButHiddenMirror (readyAt 0#11 0x40000F00#32)
      { readyAt 0#11 0x40000F00#32 with front := Vector.replicate cells ⟨0x58#8, 0x04#8⟩ } ∧
    (∃ t, step (readyAt 0#11 0x40000F00#32) = .next t) ∧
    SameButHiddenMirror (readyAt 2001#11 0x10000241#32)
      { readyAt 2001#11 0x10000241#32 with front := Vector.replicate cells ⟨0x58#8, 0x04#8⟩ } ∧
    step (readyAt 2001#11 0x10000241#32) = .fault .cursorOffGrid := by
  refine ⟨⟨rfl, fun i h hn => ?_⟩, ⟨_, step_setfg 0#11⟩, ⟨rfl, fun i h hn => ?_⟩, step_offGrid⟩
  all_goals
    have := afterReset_allStaged i h
    rw [show afterReset.back[i] = none from hn] at this
    cases this

theorem witness_WholeGridCommandsStageEverySlot :
    (readyAt 2000#11 0#32).cursor.toNat = cells ∧ lastRowStart ≤ (readyAt 1920#11 0#32).cursor.toNat ∧
      lastRowStart ≤ (readyAt 2000#11 0#32).cursor.toNat := by
  decide

theorem witness_SetbgRepaintsEveryCell : 0 < cells ∧ 1999 < cells := by decide

theorem witness_ForegroundRegisterIsNotRead :
    (¬ NextIsReset (readyFor 0x60000000#32) ∧
      (¬ ∃ color, NextIsCommand (readyFor 0x60000000#32) (.setfg color)) ∧
      ∃ t, step (readyFor 0x60000000#32) = .next t) ∧
    (¬ NextIsReset (readyAt 2001#11 0x10000241#32) ∧
      (¬ ∃ color, NextIsCommand (readyAt 2001#11 0x10000241#32) (.setfg color)) ∧
      step (readyAt 2001#11 0x10000241#32) = .fault .cursorOffGrid) := by
  refine ⟨⟨(fun ⟨_, h⟩ => by cases h), ?_, _, step_commit⟩, not_reset_readyAt _ _, ?_, step_offGrid⟩
  all_goals
    rintro ⟨color, w, ⟨rest, h⟩, hd⟩
    cases h
  · exact absurd (hd.symm.trans (show decode 0x60000000#32 = .command .commit by decide)) (by simp)
  · exact absurd (hd.symm.trans (show decode 0x10000241#32 = .command (.putc 0x41#8 0x2#4) by decide)) (by simp)

/-- A step that emits a port write and a step that emits a port read. -/
theorem witness_PortsAreAccessedOnlyByPortCommands :
    (∃ t, step (readyFor 0x70000000#32) = .next t ∧ ∃ p v, Event.portWrite p v ∈ t.history) ∧
      (∃ t, step (readyFor 0x80000000#32) = .next t ∧ ∃ p v, Event.portRead p v ∈ t.history) :=
  ⟨⟨_, step_word (i := .cursorOff) rfl (by decide) rfl, 0x3D4#16, 0x0A#8, by
      simp [advanceIndex, portWrite, emit, readyFor, ready, afterReset, State.reset, defaults]⟩,
    ⟨_, step_word (i := .blinkToggle) rfl (by decide) rfl, 0x3DA#16, portDraw 1, by
      simp [advanceIndex, blinkSequence, portRead, portWrite, emit, readyFor, ready, afterReset, State.reset,
        defaults]⟩⟩

theorem witness_StatusRegisterLayout :
    afterReset.params.resetCursor = 0#11 ∧
      { defaults with resetCursor := 1920#11 }.resetCursor = 1920#11 := ⟨rfl, rfl⟩

theorem witness_RegisterPortLayout : 4 ≤ (4#8 : BitVec 8).toNat ∧ 4 ≤ (255#8 : BitVec 8).toNat := by decide

theorem witness_HostReadsReturnTheLastStore :
    (Memory.wf oneStaged.mem = true ∧ (∃ t, exec .commit oneStaged = .next t) ∧
      (∃ c, oneStaged.back[7]'(by decide) = some c) ∧ oneStaged.back[8]'(by decide) = none) ∧
    (∃ t, step (readyAt 0#11 0x40000F00#32) = .next t) ∧
      ¬ NextIsCommand (readyAt 0#11 0x40000F00#32) .commit :=
  ⟨⟨rfl, ⟨_, oneStaged_commit⟩, ⟨_, oneStaged_back 7 _⟩, oneStaged_back 8 _⟩, ⟨_, step_setfg 0#11⟩,
    not_commit_readyAt _⟩

/-- Each of the four commands completes, PUTC in all three of its forms. -/
theorem witness_FrameOfStagingCommands :
    (∃ t, exec (.putc 0x41#8 0x2#4) afterReset = .next t) ∧ afterReset.cursor.toNat < cells ∧
    (∃ t, exec (.putc 0x0A#8 0x2#4) afterReset = .next t) ∧ afterReset.cursor.toNat < lastRowStart ∧
    (∃ t, exec (.putat 0x5A#8 0xE#4 79 24) afterReset = .next t) ∧
    (∃ t, exec .scroll afterReset = .next t) ∧ (∃ t, exec (.setbg 0x1#4) afterReset = .next t) :=
  ⟨⟨_, execPutc_character afterReset 0x41#8 0x2#4 (by decide) (by decide)⟩, by decide,
    ⟨_, execPutc_newline afterReset 0x2#4⟩, by decide, ⟨_, exec_putat_of_inGrid _ _ _ (by decide)⟩, ⟨_, rfl⟩,
    ⟨_, rfl⟩⟩

theorem witness_FrameOfForegroundAndPortCommands :
    (∃ t, exec (.setfg 0x1#4) afterReset = .next t) ∧ (∃ t, exec .cursorOff afterReset = .next t) ∧
      (∃ t, exec .blinkToggle afterReset = .next t) := ⟨⟨_, rfl⟩, ⟨_, rfl⟩, ⟨_, rfl⟩⟩

theorem witness_FrameOfCommit :
    Memory.wf oneStaged.mem = true ∧ (∃ t, exec .commit oneStaged = .next t) ∧
      (∀ (i : Nat) (h : i < cells), oneStaged.back[i].isSome = true →
        oneStaged.params.vramBase + 16 ≠ charAddr oneStaged.params i ∧
        oneStaged.params.vramBase + 16 ≠ attrAddr oneStaged.params i) :=
  ⟨rfl, ⟨_, oneStaged_commit⟩, witness_UnwrittenBytesKeepTheirValue.2.2.2⟩

/-- Steps that change the cursor, `BG`, `FG` and `FRONT`. -/
theorem witness_EachRegisterHasItsWriters :
    runs afterReset 0x10000241 (fun t => t.cursor != afterReset.cursor) = true ∧
      runs afterReset 0x30000100 (fun t => t.bg != afterReset.bg && !slotIs t 0 0x20#8 0x07#8) = true ∧
      runs afterReset 0x40000400 (fun t => t.fg != afterReset.fg) = true ∧
      runs oneStaged 0x60000000 (fun t => t.front[7]? != oneStaged.front[7]?) = true := by
  refine ⟨?_, ?_, ?_, ?_⟩ <;> decide +kernel

/-- A PUTC at the last cell, and a SETFG under the pending scroll. -/
theorem witness_PendingScrollComesFromTheLastCell :
    Invariant (readyAt 1999#11 0x10000241#32) ∧
    runs { afterReset with cursor := 1999#11 } 0x10000241 (fun t => t.cursor.toNat == cells) = true ∧
    Invariant (readyAt 2000#11 0x40000F00#32) ∧ (∃ t, step (readyAt 2000#11 0x40000F00#32) = .next t ∧
      t.cursor.toNat = cells) := by
  have inv : ∀ (c : BitVec 11) (w : Word), c.toNat ≤ cells → Invariant (readyAt c w) := fun c w hc =>
    let h := ready_invariant (.command w)
    ⟨h.params, hc, ⟨h.errors.none_iff, h.errors.illegal, h.errors.range, h.errors.notReserved, h.errors.word⟩,
      h.memory, h.region, h.mirror⟩
  refine ⟨inv _ _ (by decide), ?_, inv _ _ (by decide), ⟨_, step_setfg 2000#11, rfl⟩⟩
  decide +kernel

theorem witness_EveryStepKeepsTheInvariant :
    (Invariant (readyFor 0x60000000#32) ∧ ∃ t, step (readyFor 0x60000000#32) = .next t) ∧
      (Invariant (committed 0x40000F00#32) ∧ ∃ t, step (committed 0x40000F00#32) = .next t) :=
  ⟨⟨ready_invariant _, _, step_commit⟩, ⟨committed_invariant _, _, step_committed⟩⟩

theorem witness_NoStepStopsFromASoundState : Invariant (readyFor 0x20FFFFFF#32) := ready_invariant _

theorem witness_PutatUnderPendingScrollMovesUp :
    (readyAt 2000#11 0#32).cursor.toNat = cells ∧ 79 < cols ∧ 24 < rows ∧ 0 < rows ∧ (0x41#8 : Byte) ≠ 0x0A#8 := by
  decide

theorem witness_PseudoCommandsExpandToPutc :
    asmColor (.name .white) = some 0xF#4 ∧ asmColor (.number 15) = some 0xF#4 ∧ asmColor (.number 16) = none := by
  decide

theorem witness_AssemblerChecksOperandWidths :
    (255 < 256 ∧ 15 < 16 ∧ 127 < 128 ∧ 31 < 32) ∧ ¬ (256 < 256 ∧ 15 < 16 ∧ 127 < 128 ∧ 31 < 32) := by decide

end Sys2Proof.Tests
end

section
/-! Completion: from a state that meets the invariant every command, and so every step, answers a next state
(00_scope.md R12, 60_exceptions.md R170). -/

namespace Sys2Proof.Machine

open Sys2Proof.Config

/-- A pending scroll is taken first, so a cursor in its range is on the grid when PUTC stages
(40_output.md R104). -/
theorem execPutc_completes {s : State} (h : CursorInRange s) (ch : Byte) (color : Color) :
    ∃ t, execPutc ch color s = .next t := by
  by_cases hc : ch = newline
  · subst hc
    exact ⟨_, execPutc_newline s color⟩
  · exact ⟨_, execPutc_character s ch color hc (takePendingScroll_cursor_lt h)⟩

/-- PUTAT with a coordinate outside the grid records RANGE (40_output.md R105). -/
theorem exec_putat_of_not_inGrid (s : State) (ch : Byte) (color : Color) {col row : Nat}
    (h : ¬ InGrid col row) :
    exec (.putat ch color col row) s = .next (raiseError .range (encode (.putat ch color col row)) s) :=
  dif_neg h

/-- The two conditions that keep a command from stopping: COMMIT needs the region to fit, PUTC the cursor in
its range. -/
theorem exec_completes {s : State} (hfits : s.params.RegionFits) (hcursor : CursorInRange s) (i : Instr) :
    ∃ t, exec i s = .next t := by
  cases i with
  | putc ch color => exact execPutc_completes hcursor ch color
  | putat ch color col row =>
    by_cases hg : InGrid col row
    · exact ⟨_, exec_putat_of_inGrid s ch color hg⟩
    · exact ⟨_, exec_putat_of_not_inGrid s ch color hg⟩
  | setbg color => exact ⟨_, rfl⟩
  | setfg color => exact ⟨_, rfl⟩
  | scroll => exact ⟨_, rfl⟩
  | commit => exact ⟨_, exec_commit_of_fits hfits⟩
  | cursorOff => exact ⟨_, rfl⟩
  | blinkToggle => exact ⟨_, rfl⟩

/-- A word either decodes to a command, which completes, or is rejected, which records an error. -/
theorem runWord_completes {s : State} (hfits : s.params.RegionFits) (hcursor : CursorInRange s) (w : Word) :
    ∃ t, runWord w s = .next t := by
  cases hd : decode w with
  | command i =>
    obtain ⟨u, hu⟩ := exec_completes hfits hcursor i
    exact ⟨advanceIndex u, by rw [runWord_of_command hd, hu, retire]⟩
  | illegal why => exact ⟨_, runWord_of_illegal hd s⟩

/-- Settles O56: of the invariant, only the parameters' and the cursor's conditions are needed. -/
theorem noStepStopsFromASoundState : Obligations.NoStepStopsFromASoundState := by
  intro s hs
  match hi : s.inputs with
  | [] => exact ⟨s, step_of_nil hi⟩
  | .reset :: rest => exact ⟨_, step_of_reset hi⟩
  | .command w :: rest =>
    obtain ⟨hfits, -⟩ := hs.params
    rw [step_of_word hi]
    exact runWord_completes (s := { s with inputs := rest }) hfits hs.cursor w

theorem step_of_command {s : State} {w : Word} {rest : List Input} {i : Instr}
    (hi : s.inputs = .command w :: rest) (hd : decode w = .command i) :
    step s = retire (exec i { s with inputs := rest }) := by
  rw [step_of_word hi, runWord_of_command hd]

/-- Settles O6, by the three outcomes `exec` can have. -/
theorem stepRunsTheDecodedCommand : Obligations.StepRunsTheDecodedCommand := by
  intro s w rest i hi hd
  rw [step_of_command hi hd]
  cases exec i { s with inputs := rest } with
  | next t => rfl
  | fault f => rfl
  | refused r => rfl

end Sys2Proof.Machine
end

section
/-! Two runs side by side: a relation between states that every shared operation keeps is kept by every step
(00_scope.md R12). -/

namespace Sys2Proof.Machine

open Sys2Proof.Config

/-- Outcomes of the same kind: next states that `R` relates, or one and the same stop. -/
inductive SameOutcome (R : State → State → Prop) :
    Host.Outcome State Fault Refusal → Host.Outcome State Fault Refusal → Prop
  | next {t t' : State} (h : R t t') : SameOutcome R (.next t) (.next t')
  | fault (f : Fault) : SameOutcome R (.fault f) (.fault f)
  | refused (r : Refusal) : SameOutcome R (.refused r) (.refused r)

/-- The form in which the statements about two runs say that the outcomes are the same. -/
theorem SameOutcome.next_and_fault {R : State → State → Prop} {o o' : Host.Outcome State Fault Refusal}
    (h : SameOutcome R o o') :
    (∀ t, o = .next t → ∃ t', o' = .next t' ∧ R t t') ∧ (∀ f, o = .fault f → o' = .fault f) := by
  cases h with
  | next h => exact ⟨fun t ht => ⟨_, rfl, Host.Outcome.next.inj ht ▸ h⟩, nofun⟩
  | fault f => exact ⟨nofun, fun _ hf => hf⟩
  | refused r => exact ⟨nofun, nofun⟩

/-- `R` relates only states that agree on what decides the course of a step (the stream, the parameters, the
cursor, the count of draws), and every operation the commands share keeps `R`. -/
structure KeptByOps (R : State → State → Prop) : Prop where
  inputs {s s'} : R s s' → s'.inputs = s.inputs
  params {s s'} : R s s' → s'.params = s.params
  cursor {s s'} : R s s' → s'.cursor = s.cursor
  draws {s s'} : R s s' → s'.draws = s.draws
  setInputs {s s'} (l : List Input) : R s s' → R { s with inputs := l } { s' with inputs := l }
  setCursor {s s'} (c : BitVec 11) : R s s' → R { s with cursor := c } { s' with cursor := c }
  setFg {s s'} (c : Color) : R s s' → R { s with fg := c } { s' with fg := c }
  advanceIndex {s s'} : R s s' → R (advanceIndex s) (advanceIndex s')
  portWrite {s s'} (p : Port) (v : Byte) : R s s' → R (portWrite p v s) (portWrite p v s')
  portRead {s s'} (p : Port) (v : Byte) : R s s' → R (portRead p v s) (portRead p v s')
  raiseError {s s'} (k : Cause) (w : Word) : R s s' → R (raiseError k w s) (raiseError k w s')
  stage {s s'} (i : Fin cells) (ch : Byte) (color : Color) :
    R s s' → R (stage i ch color s) (stage i ch color s')
  scroll {s s'} : R s s' → R (scroll s) (scroll s')
  repaintAll {s s'} (b : Color) : R s s' → R (repaintAll b s) (repaintAll b s')
  commitStaged {s s'} : R s s' → R (commitStaged s) (commitStaged s')
  assertReset {s s'} : R s s' → R (assertReset s) (assertReset s')

namespace KeptByOps

variable {R : State → State → Prop} {s s' : State}

theorem takePendingScroll (hR : KeptByOps R) (h : R s s') :
    R (takePendingScroll s) (takePendingScroll s') := by
  by_cases hc : s.cursor.toNat = cells
  · rw [takePendingScroll_of_eq s hc, takePendingScroll_of_eq s' (by rwa [hR.cursor h])]
    exact hR.scroll h
  · rw [takePendingScroll_of_ne s hc, takePendingScroll_of_ne s' (by rwa [hR.cursor h])]
    exact h

theorem newlineAdvance (hR : KeptByOps R) (h : R s s') : R (newlineAdvance s) (newlineAdvance s') := by
  by_cases hc : s.cursor.toNat < lastRowStart
  · rw [newlineAdvance_of_lt s hc, newlineAdvance_of_lt s' (by rwa [hR.cursor h]), hR.cursor h]
    exact hR.setCursor _ h
  · rw [newlineAdvance_of_ge s (by omega), newlineAdvance_of_ge s' (by rw [hR.cursor h]; omega)]
    exact hR.scroll h

theorem advanceOne (hR : KeptByOps R) (h : R s s') (hc : s.cursor.toNat < cells) :
    R (advanceOne s) (advanceOne s') := by
  rw [advanceOne_of_lt s hc, advanceOne_of_lt s' (by rwa [hR.cursor h]), hR.cursor h]
  exact hR.setCursor _ h

theorem putAtCursor (hR : KeptByOps R) (h : R s s') (ch : Byte) (color : Color) :
    SameOutcome R (putAtCursor ch color s) (putAtCursor ch color s') := by
  simp only [Machine.putAtCursor, hR.cursor h]
  split
  · exact .next (hR.newlineAdvance h)
  · split
    next hlt => exact .next (hR.advanceOne (hR.stage _ ch color h) hlt)
    next => exact .fault _

theorem execPutat (hR : KeptByOps R) (h : R s s') (ch : Byte) (color : Color) (col row : Nat) :
    SameOutcome R (execPutat ch color col row s) (execPutat ch color col row s') := by
  unfold Machine.execPutat
  split
  · exact .next (hR.stage _ ch color h)
  · exact .next (hR.raiseError _ _ h)

theorem execCommit (hR : KeptByOps R) (h : R s s') : SameOutcome R (execCommit s) (execCommit s') := by
  simp only [Machine.execCommit, hR.params h]
  split
  · exact .next (hR.commitStaged h)
  · exact .fault _

theorem execCursorOff (hR : KeptByOps R) (h : R s s') :
    SameOutcome R (execCursorOff s) (execCursorOff s') := by
  simp only [Machine.execCursorOff, hR.params h]
  exact .next (hR.portWrite _ _ (hR.portWrite _ _ h))

theorem execBlinkToggle (hR : KeptByOps R) (h : R s s') :
    SameOutcome R (execBlinkToggle s) (execBlinkToggle s') := by
  simp only [Machine.execBlinkToggle, blinkSequence, hR.params h, hR.draws h]
  exact .next (hR.portWrite _ _ (hR.portRead _ _ (hR.portWrite _ _ (hR.portRead _ _ h))))

theorem exec (hR : KeptByOps R) (h : R s s') (i : Instr) : SameOutcome R (exec i s) (exec i s') := by
  cases i with
  | putc ch color => exact hR.putAtCursor (hR.takePendingScroll h) ch color
  | putat ch color col row => exact hR.execPutat h ch color col row
  | setbg color => exact .next (hR.repaintAll color h)
  | setfg color => exact .next (hR.setFg color h)
  | scroll => exact .next (hR.scroll h)
  | commit => exact hR.execCommit h
  | cursorOff => exact hR.execCursorOff h
  | blinkToggle => exact hR.execBlinkToggle h

theorem retire (hR : KeptByOps R) {o o' : Host.Outcome State Fault Refusal} (h : SameOutcome R o o') :
    SameOutcome R (retire o) (retire o') := by
  cases h with
  | next h => exact .next (hR.advanceIndex h)
  | fault f => exact .fault f
  | refused r => exact .refused r

theorem runWord (hR : KeptByOps R) (h : R s s') (w : Word) :
    SameOutcome R (runWord w s) (runWord w s') := by
  cases hd : decode w with
  | command i =>
    rw [runWord_of_command hd, runWord_of_command hd]
    exact hR.retire (hR.exec h i)
  | illegal why =>
    rw [runWord_of_illegal hd, runWord_of_illegal hd]
    exact .next (hR.advanceIndex (hR.raiseError _ _ h))

/-- Related states step to related states, or stop in the same way. -/
theorem step (hR : KeptByOps R) (h : R s s') : SameOutcome R (step s) (step s') := by
  match hi : s.inputs with
  | [] =>
    rw [step_of_nil hi, step_of_nil ((hR.inputs h).trans hi)]
    exact .next h
  | .command w :: rest =>
    rw [step_of_word hi, step_of_word ((hR.inputs h).trans hi)]
    exact hR.runWord (hR.setInputs rest h) w
  | .reset :: rest =>
    rw [step_of_reset hi, step_of_reset ((hR.inputs h).trans hi)]
    exact .next (hR.assertReset (hR.setInputs rest h))

end KeptByOps

end Sys2Proof.Machine
end

section
/-! The mirror under staged slots is never read (10_state.md R28, R40, R41). -/

namespace Sys2Proof.Machine

open Sys2Proof.Config

/-- The mirror `f` differs from that of `s` only under staged slots. -/
def AgreesWhereUnstaged (f : Vector Cell cells) (s : State) : Prop :=
  ∀ (i : Nat) (h : i < cells), s.back[i] = none → f[i] = s.front[i]

theorem sameButHiddenMirror_iff {s s' : State} :
    SameButHiddenMirror s s' ↔ ∃ f, AgreesWhereUnstaged f s ∧ s' = { s with front := f } := by
  constructor
  · rintro ⟨hs', hf⟩
    exact ⟨s'.front, hf, hs'⟩
  · rintro ⟨f, hf, rfl⟩
    exact ⟨rfl, hf⟩

/-- Where a slot is staged the mirror is not shown, and elsewhere the two mirrors agree. -/
theorem AgreesWhereUnstaged.shown_eq {f : Vector Cell cells} {s : State} (hf : AgreesWhereUnstaged f s)
    (i : Nat) (h : i < cells) : shown s.back[i] f[i] = shown s.back[i] s.front[i] := by
  cases hb : s.back[i] with
  | some c => rfl
  | none => exact hf i h hb

/-- What every whole-grid command computes from the two arrays, it computes from the cells shown. -/
theorem AgreesWhereUnstaged.zipWith_shown {α : Type} {f : Vector Cell cells} {s : State}
    (hf : AgreesWhereUnstaged f s) (g : Cell → α) :
    Grid.zipWith (fun slot mirror => g (shown slot mirror)) s.back f =
      Grid.zipWith (fun slot mirror => g (shown slot mirror)) s.back s.front := by
  apply Vector.ext
  intro i h
  rw [Grid.getElem_zipWith, Grid.getElem_zipWith, hf.shown_eq i h]

/-- An operation that unstages no slot and keeps the mirror keeps the agreement. -/
theorem AgreesWhereUnstaged.of_staging {f : Vector Cell cells} {s t : State} (hf : AgreesWhereUnstaged f s)
    (hfront : t.front = s.front)
    (hback : ∀ (i : Nat) (h : i < cells), t.back[i] = none → s.back[i] = none) :
    AgreesWhereUnstaged f t := fun i h hn => by
  rw [hfront]
  exact hf i h (hback i h hn)

theorem stage_unstaged {k : Fin cells} {ch : Byte} {color : Color} {s : State} {i : Nat} {h : i < cells}
    (hn : (stage k ch color s).back[i] = none) : s.back[i] = none := by
  rw [stage_back, Vector.getElem_set] at hn
  split at hn
  · cases hn
  · exact hn

theorem scroll_ne_unstaged (s : State) (i : Nat) (h : i < cells) : (scroll s).back[i] ≠ none :=
  Option.isSome_iff_ne_none.1 (scroll_back_isSome s i h)

theorem repaintAll_ne_unstaged (b : Color) (s : State) (i : Nat) (h : i < cells) :
    (repaintAll b s).back[i] ≠ none := by
  rw [repaintAll_back_getElem]
  exact Option.some_ne_none _

theorem assertReset_ne_unstaged (s : State) (i : Nat) (h : i < cells) :
    (assertReset s).back[i] ≠ none := by
  rw [assertReset_back_getElem]
  exact Option.some_ne_none _

/-- SCROLL reads the mirror only through the cells shown. -/
theorem AgreesWhereUnstaged.scroll_eq {f : Vector Cell cells} {s : State} (hf : AgreesWhereUnstaged f s) :
    scroll { s with front := f } = { scroll s with front := f } := by
  simp only [scroll, hf.zipWith_shown some]

/-- SETBG reads the mirror only through the cells shown. -/
theorem AgreesWhereUnstaged.repaintAll_eq {f : Vector Cell cells} {s : State}
    (hf : AgreesWhereUnstaged f s) (b : Color) :
    repaintAll b { s with front := f } = { repaintAll b s with front := f } := by
  simp only [repaintAll, hf.zipWith_shown fun c => some (repaint b c)]

/-- COMMIT overwrites the mirror with the cells shown, so nothing of a hidden cell is left. -/
theorem AgreesWhereUnstaged.commitStaged_eq {f : Vector Cell cells} {s : State}
    (hf : AgreesWhereUnstaged f s) : commitStaged { s with front := f } = commitStaged s := by
  have hfront : Grid.zipWith shown s.back f = Grid.zipWith shown s.back s.front := hf.zipWith_shown id
  simp only [commitStaged, commitStores, hfront]

/-- An operation that treats the mirror in this way, and unstages no slot, keeps the relation. -/
theorem SameButHiddenMirror.map {op : State → State} {s s' : State} (h : SameButHiddenMirror s s')
    (hop : ∀ f, AgreesWhereUnstaged f s → op { s with front := f } = { op s with front := f })
    (hfront : (op s).front = s.front)
    (hback : ∀ (i : Nat) (h : i < cells), (op s).back[i] = none → s.back[i] = none) :
    SameButHiddenMirror (op s) (op s') := by
  obtain ⟨f, hf, rfl⟩ := sameButHiddenMirror_iff.1 h
  exact sameButHiddenMirror_iff.2 ⟨f, hf.of_staging hfront hback, hop f hf⟩

/-- Every operation keeps the relation: those that read the mirror read the cells shown, and the
two that replace it, COMMIT and reset, leave equal mirrors. -/
theorem keptByOps_sameButHiddenMirror : KeptByOps SameButHiddenMirror where
  inputs h := by rw [h.1]
  params h := by rw [h.1]
  cursor h := by rw [h.1]
  draws h := by rw [h.1]
  setInputs l h := h.map (op := fun s => { s with inputs := l }) (fun _ _ => rfl) rfl fun _ _ hn => hn
  setCursor c h := h.map (op := fun s => { s with cursor := c }) (fun _ _ => rfl) rfl fun _ _ hn => hn
  setFg c h := h.map (op := fun s => { s with fg := c }) (fun _ _ => rfl) rfl fun _ _ hn => hn
  advanceIndex h := h.map (fun _ _ => rfl) rfl fun _ _ hn => hn
  portWrite _ _ h := h.map (fun _ _ => rfl) rfl fun _ _ hn => hn
  portRead _ _ h := h.map (fun _ _ => rfl) rfl fun _ _ hn => hn
  raiseError _ _ h := h.map (fun _ _ => rfl) rfl fun _ _ hn => hn
  stage _ _ _ h := h.map (fun _ _ => rfl) rfl fun _ _ => stage_unstaged
  scroll {s _} h :=
    h.map (fun _ hf => hf.scroll_eq) rfl fun i hi hn => absurd hn (scroll_ne_unstaged s i hi)
  repaintAll {s _} b h :=
    h.map (fun _ hf => hf.repaintAll_eq b) rfl fun i hi hn => absurd hn (repaintAll_ne_unstaged b s i hi)
  commitStaged {s _} h := by
    obtain ⟨f, hf, rfl⟩ := sameButHiddenMirror_iff.1 h
    exact sameButHiddenMirror_iff.2 ⟨(commitStaged s).front, fun _ _ _ => rfl, hf.commitStaged_eq⟩
  assertReset {s _} h := by
    obtain ⟨f, hf, rfl⟩ := sameButHiddenMirror_iff.1 h
    exact sameButHiddenMirror_iff.2 ⟨(assertReset s).front, fun _ _ _ => rfl, rfl⟩

/-- Settles O38: `SameButHiddenMirror` is a relation every operation keeps. -/
theorem hiddenMirrorCellsStayUnobservable : Obligations.HiddenMirrorCellsStayUnobservable :=
  fun _ _ h => (keptByOps_sameButHiddenMirror.step h).next_and_fault

end Sys2Proof.Machine
end

section
/-! The invariant is kept by every operation the commands share, hence by every step (10_state.md R39, 20_memory.md
R53, 60_exceptions.md R172, 70_reset_and_hazards.md R204). -/

namespace Sys2Proof.Machine

open Sys2Proof.Config

/-! ## The error record -/

theorem ErrorRecordSound.of_same {s t : State} (hs : ErrorRecordSound s) (h : SameErrorRecord s t) :
    ErrorRecordSound t := by
  obtain ⟨hrange, hillegal, hcause, hword⟩ := h
  constructor <;> rw [hcause]
  · rw [hillegal, hrange]; exact hs.none_iff
  · rw [hillegal]; exact hs.illegal
  · rw [hrange]; exact hs.range
  · exact hs.notReserved
  · rw [hword]; exact hs.word

/-- Reset clears the record, and a clear record is sound (70_reset_and_hazards.md R200). -/
theorem errorRecordSound_of_clear {s : State} (hrange : s.errRange = false) (hillegal : s.errIllegal = false)
    (hcause : s.errCause = 0#2) (hword : s.errWord = 0#32) : ErrorRecordSound s := by
  constructor <;> simp [hrange, hillegal, hcause, hword]

/-- The first error sets cause, word and bit together, and a later one only sets a bit (60_exceptions.md R172). -/
theorem ErrorRecordSound.raiseError {s : State} (hs : ErrorRecordSound s) (k : Cause) (w : Word) :
    ErrorRecordSound (raiseError k w s) := by
  by_cases h0 : s.errCause = 0#2
  · constructor <;> cases k <;> simp [h0, causeCode]
  · have hset : s.errIllegal = true ∨ s.errRange = true := by
      by_contra hclear
      exact h0 (hs.none_iff.2 (by simpa using hclear))
    constructor <;> simp only [raiseError_errCause, raiseError_errIllegal, raiseError_errRange, if_neg h0]
    · refine iff_of_false h0 ?_
      rcases hset with h | h <;> simp [h]
    · intro h; rw [hs.illegal h, Bool.true_or]
    · intro h; rw [hs.range h, Bool.true_or]
    · exact hs.notReserved
    · exact fun h => absurd h h0

/-! ## The operations that store nothing -/

/-- An operation that stores nothing keeps the invariant if it leaves the cursor in its range and the record sound,
and if every slot it leaves unstaged was unstaged before, with the same mirror cell. -/
theorem Invariant.of_noStore {s t : State} (hs : Invariant s) (hparams : t.params = s.params)
    (hmem : t.mem = s.mem) (hcursor : CursorInRange t) (herrors : ErrorRecordSound t)
    (hunstaged : ∀ (i : Nat) (h : i < cells), t.back[i] = none →
      s.back[i] = none ∧ t.front[i] = s.front[i]) : Invariant t where
  params := by rw [hparams]; exact hs.params
  cursor := hcursor
  errors := herrors
  memory := by rw [hmem]; exact hs.memory
  region := by
    unfold StoredOnlyInRegion
    rw [hmem, hparams]
    exact hs.region
  mirror i h hn := by
    obtain ⟨hback, hfront⟩ := hunstaged i h hn
    rw [hfront, ← hs.mirror i h hback, storedCell, storedCell, hmem, hparams]

/-- The invariant speaks of none of `BG`, `FG`, the index, the history, the stream and the draws. -/
theorem Invariant.of_same {s t : State} (hs : Invariant s) (hparams : t.params = s.params)
    (hmem : t.mem = s.mem) (hcursor : t.cursor = s.cursor) (herrors : SameErrorRecord s t)
    (hback : t.back = s.back) (hfront : t.front = s.front) : Invariant t :=
  hs.of_noStore hparams hmem (by unfold CursorInRange; rw [hcursor]; exact hs.cursor)
    (hs.errors.of_same herrors) fun i h hn => by
      rw [hback] at hn
      exact ⟨hn, by rw [hfront]⟩

theorem Invariant.setInputs {s : State} (hs : Invariant s) (l : List Input) :
    Invariant { s with inputs := l } :=
  hs.of_same rfl rfl rfl ⟨rfl, rfl, rfl, rfl⟩ rfl rfl

theorem Invariant.setFg {s : State} (hs : Invariant s) (c : Color) : Invariant { s with fg := c } :=
  hs.of_same rfl rfl rfl ⟨rfl, rfl, rfl, rfl⟩ rfl rfl

theorem Invariant.advanceIndex {s : State} (hs : Invariant s) : Invariant (advanceIndex s) :=
  hs.of_same rfl rfl rfl ⟨rfl, rfl, rfl, rfl⟩ rfl rfl

theorem Invariant.portWrite {s : State} (hs : Invariant s) (p : Port) (v : Byte) :
    Invariant (portWrite p v s) :=
  hs.of_same rfl rfl rfl ⟨rfl, rfl, rfl, rfl⟩ rfl rfl

theorem Invariant.portRead {s : State} (hs : Invariant s) (p : Port) (v : Byte) :
    Invariant (portRead p v s) :=
  hs.of_same rfl rfl rfl ⟨rfl, rfl, rfl, rfl⟩ rfl rfl

theorem Invariant.setCursor {s : State} (hs : Invariant s) {c : BitVec 11} (hc : c.toNat ≤ cells) :
    Invariant { s with cursor := c } :=
  hs.of_noStore rfl rfl hc (hs.errors.of_same ⟨rfl, rfl, rfl, rfl⟩) fun _ _ hn => ⟨hn, rfl⟩

theorem Invariant.raiseError {s : State} (hs : Invariant s) (k : Cause) (w : Word) :
    Invariant (raiseError k w s) :=
  hs.of_noStore rfl rfl hs.cursor (hs.errors.raiseError k w) fun _ _ hn => ⟨hn, rfl⟩

theorem Invariant.stage {s : State} (hs : Invariant s) (i : Fin cells) (ch : Byte) (color : Color) :
    Invariant (stage i ch color s) :=
  hs.of_noStore rfl rfl hs.cursor (hs.errors.of_same ⟨rfl, rfl, rfl, rfl⟩) fun _ _ hn =>
    ⟨stage_unstaged hn, rfl⟩

theorem Invariant.scroll {s : State} (hs : Invariant s) : Invariant (scroll s) :=
  hs.of_noStore rfl rfl (by rw [CursorInRange, scroll_cursor_toNat]; decide)
    (hs.errors.of_same ⟨rfl, rfl, rfl, rfl⟩) fun i h hn => absurd hn (scroll_ne_unstaged s i h)

theorem Invariant.repaintAll {s : State} (hs : Invariant s) (b : Color) : Invariant (repaintAll b s) :=
  hs.of_noStore rfl rfl hs.cursor (hs.errors.of_same ⟨rfl, rfl, rfl, rfl⟩) fun i h hn =>
    absurd hn (repaintAll_ne_unstaged b s i h)

/-- The reset cursor of an allowed variant is in the cursor's range (00_scope.md R10). -/
theorem resetCursor_le_of_wellFormed {p : Params} (h : p.WellFormed) :
    p.resetCursor.toNat ≤ lastRowStart := by
  obtain ⟨-, hc | hc, -⟩ := h <;> rw [hc] <;> decide

theorem lastRowStart_lt_cells : lastRowStart < cells := by decide

theorem Invariant.assertReset {s : State} (hs : Invariant s) : Invariant (assertReset s) :=
  hs.of_noStore rfl rfl
    ((resetCursor_le_of_wellFormed hs.params).trans lastRowStart_lt_cells.le)
    (errorRecordSound_of_clear rfl rfl rfl rfl) fun i h hn => absurd hn (assertReset_ne_unstaged s i h)

/-! ## The cursor procedures -/

theorem toNat_ofNat_of_le_cells {n : Nat} (h : n ≤ cells) : (BitVec.ofNat 11 n).toNat = n := by
  rw [BitVec.toNat_ofNat, Nat.mod_eq_of_lt]
  rw [cells_eq] at h
  omega

theorem newlineAdvance_cursor_le (s : State) : (newlineAdvance s).cursor.toNat ≤ lastRowStart := by
  by_cases h : s.cursor.toNat < lastRowStart
  · rw [newlineAdvance_of_lt s h]
    rw [lastRowStart_eq] at *
    have hle : s.cursor.toNat - s.cursor.toNat % cols + cols ≤ 1920 := by rw [cols_eq]; omega
    rw [toNat_ofNat_of_le_cells (by rw [cells_eq]; omega)]
    exact hle
  · rw [newlineAdvance_of_ge s (by omega), scroll_cursor_toNat]

theorem Invariant.takePendingScroll {s : State} (hs : Invariant s) : Invariant (takePendingScroll s) := by
  by_cases h : s.cursor.toNat = cells
  · rw [takePendingScroll_of_eq s h]; exact hs.scroll
  · rw [takePendingScroll_of_ne s h]; exact hs

theorem Invariant.newlineAdvance {s : State} (hs : Invariant s) : Invariant (newlineAdvance s) := by
  by_cases h : s.cursor.toNat < lastRowStart
  · have hle := newlineAdvance_cursor_le s
    rw [newlineAdvance_of_lt s h] at hle ⊢
    exact hs.setCursor (hle.trans lastRowStart_lt_cells.le)
  · rw [newlineAdvance_of_ge s (by omega)]; exact hs.scroll

theorem advanceOne_cursor_toNat {s : State} (h : s.cursor.toNat < cells) :
    (advanceOne s).cursor.toNat = s.cursor.toNat + 1 := by
  rw [advanceOne_of_lt s h, toNat_ofNat_of_le_cells h]

theorem Invariant.advanceOne {s : State} (hs : Invariant s) (h : s.cursor.toNat < cells) :
    Invariant (advanceOne s) := by
  rw [advanceOne_of_lt s h]
  exact hs.setCursor (by rw [toNat_ofNat_of_le_cells h]; exact h)

/-! ## COMMIT -/

/-- A COMMIT leaves the bytes of an unstaged cell alone (20_memory.md R54). -/
theorem commitStaged_storedCell_of_unstaged {s : State} (hw : Memory.wf s.mem = true) {i : Nat}
    (h : i < cells) (hn : s.back[i] = none) : storedCell i (commitStaged s) = storedCell i s := by
  rw [storedCell, storedCell, commitStaged_params, commitStaged_read s hw, commitStaged_read s hw,
    read_commitStores_charAddr s i h, read_commitStores_attrAddr s i h, hn]
  rfl

/-- After a COMMIT the region and the mirror hold the cell each slot showed (41_scroll_commit.md R123). -/
theorem Invariant.mirrorAgrees_commitStaged {s : State} (hs : Invariant s) :
    MirrorAgrees (commitStaged s) := fun i h => by
  rw [commitStaged_front_getElem s i h]
  cases hb : s.back[i] with
  | some c => exact commitStaged_storedCell_of_staged hs.memory h hb
  | none => exact (commitStaged_storedCell_of_unstaged hs.memory h hb).trans (hs.mirror i h hb)

theorem inRegion_iff {p : Params} {a : Nat} :
    inRegion p a = true ↔ p.vramBase ≤ a ∧ a < p.vramBase + 2 * cells := by
  simp [inRegion]

/-- Both bytes of a cell lie in the region (20_memory.md R51). -/
theorem inRegion_cellAddr (p : Params) {i : Nat} (h : i < cells) :
    inRegion p (charAddr p i) = true ∧ inRegion p (attrAddr p i) = true := by
  simp only [inRegion_iff, charAddr, attrAddr]
  omega

/-- A COMMIT stores only to bytes of staged cells, which lie in the region (20_memory.md R53). -/
theorem Invariant.storedOnlyInRegion_commitStaged {s : State} (hs : Invariant s) :
    StoredOnlyInRegion (commitStaged s) := fun a hread => by
  rw [commitStaged_params]
  by_contra hout
  have hnew : Memory.read (commitStores s) a = none :=
    read_commitStores_elsewhere s a fun i h _ => by
      obtain ⟨hchar, hattr⟩ := inRegion_cellAddr s.params h
      exact ⟨fun ha => hout (ha ▸ hchar), fun ha => hout (ha ▸ hattr)⟩
  have hold : s.mem.read a = none := by
    by_contra hne
    exact hout (hs.region a hne)
  exact hread (by rw [commitStaged_read s hs.memory, hnew, hold]; rfl)

theorem Invariant.commitStaged {s : State} (hs : Invariant s) : Invariant (commitStaged s) where
  params := hs.params
  cursor := hs.cursor
  errors := hs.errors.of_same ⟨rfl, rfl, rfl, rfl⟩
  memory := commitStaged_wf s hs.memory
  region := hs.storedOnlyInRegion_commitStaged
  mirror i h _ := hs.mirrorAgrees_commitStaged i h

/-! ## Commands and steps -/

theorem exec_keeps_invariant {i : Instr} {s t : State} (hs : Invariant s) (h : exec i s = .next t) :
    Invariant t := by
  rcases exec_next_cases h with ⟨color, rfl, rfl⟩ | ⟨ch, color, rfl, -, hlt, rfl⟩ |
    ⟨ch, color, col, row, rfl, hg, rfl⟩ | ⟨ch, color, col, row, rfl, -, rfl⟩ | ⟨color, rfl, rfl⟩ |
    ⟨color, rfl, rfl⟩ | ⟨rfl, rfl⟩ | ⟨rfl, -, rfl⟩ | ⟨rfl, rfl⟩ | ⟨rfl, rfl⟩
  · exact hs.takePendingScroll.newlineAdvance
  · exact (hs.takePendingScroll.stage _ ch color).advanceOne hlt
  · exact hs.stage _ ch color
  · exact hs.raiseError _ _
  · exact hs.repaintAll color
  · exact hs.setFg color
  · exact hs.scroll
  · exact hs.commitStaged
  · exact (hs.portWrite _ _).portWrite _ _
  · exact (((hs.portRead _ _).portWrite _ _).portRead _ _).portWrite _ _

/-- Settles O55: each operation keeps the invariant, and a step is a sequence of them. -/
theorem everyStepKeepsTheInvariant : Obligations.EveryStepKeepsTheInvariant := by
  intro s t hs h
  rcases step_next_cases h with ⟨-, rfl⟩ | ⟨rest, -, rfl⟩ | ⟨w, rest, why, -, -, rfl⟩ |
    ⟨w, rest, i, u, -, -, hu, rfl⟩
  · exact hs
  · exact (hs.setInputs rest).assertReset
  · exact ((hs.setInputs rest).raiseError _ _).advanceIndex
  · exact (exec_keeps_invariant (hs.setInputs rest) hu).advanceIndex

/-- Settles O54: nothing is stored, no error is recorded, and every slot is staged. -/
theorem resetMeetsTheInvariant : Obligations.ResetMeetsTheInvariant where
  params := show defaults.WellFormed by decide
  cursor := show (0#11).toNat ≤ cells by decide
  errors := errorRecordSound_of_clear rfl rfl rfl rfl
  memory := rfl
  region _ h := absurd rfl h
  mirror i h hn := by
    have hback : State.reset.back[i] = some (blank defaults defaults.resetBg) := Vector.getElem_replicate h
    rw [hback] at hn
    cases hn

end Sys2Proof.Machine
end

section
/-! Which moves write which piece of state (10_state.md R21, R22, R23, R27, R28, R29, R39). -/

namespace Sys2Proof.Machine

open Sys2Proof.Config

/-! ## The next move -/

theorem NextIsCommand.unique {s : State} {i j : Instr} (hi : NextIsCommand s i) (hj : NextIsCommand s j) :
    i = j := by
  obtain ⟨w, ⟨rest, hw⟩, hdi⟩ := hi
  obtain ⟨w', ⟨rest', hw'⟩, hdj⟩ := hj
  rw [hw] at hw'
  cases hw'
  rw [hdi] at hdj
  exact Decoded.command.inj hdj

theorem not_nextIsCommand_of_nil {s : State} (h : s.inputs = []) (i : Instr) : ¬ NextIsCommand s i := by
  rintro ⟨w, ⟨rest, hw⟩, -⟩
  rw [h] at hw
  cases hw

theorem not_nextIsCommand_of_illegal {s : State} {w : Word} {rest : List Input} {why : Illegal}
    (h : s.inputs = .command w :: rest) (hd : decode w = .illegal why) (i : Instr) :
    ¬ NextIsCommand s i := by
  rintro ⟨w', ⟨rest', hw⟩, hi⟩
  rw [h] at hw
  cases hw
  rw [hd] at hi
  cases hi

/-- A step that is no reset runs a command, or changes at most the error record, the index and the stream. -/
theorem step_next_cases_of_not_reset {s t : State} (h : step s = .next t) (hr : ¬ NextIsReset s) :
    ((∀ i, ¬ NextIsCommand s i) ∧ NothingButErrors s t) ∨
    (∃ i rest u, NextIsCommand s i ∧ exec i { s with inputs := rest } = .next u ∧ t = advanceIndex u) := by
  rcases step_next_cases h with ⟨hi, rfl⟩ | ⟨rest, hi, -⟩ | ⟨w, rest, why, hi, hd, rfl⟩ |
    ⟨w, rest, i, u, hi, hd, hu, rfl⟩
  · exact .inl ⟨not_nextIsCommand_of_nil hi, by simp [NothingButErrors]⟩
  · exact absurd ⟨rest, hi⟩ hr
  · exact .inl ⟨not_nextIsCommand_of_illegal hi hd,
      nothingButErrors_raiseError .illegal w { s with inputs := rest }⟩
  · exact .inr ⟨i, rest, u, ⟨w, ⟨rest, hi⟩, hd⟩, hu, rfl⟩

/-! ## The command index -/

/-- Settles O14: no command moves the index, and the step around it adds one. -/
theorem commandIndexCountsCommands : Obligations.CommandIndexCountsCommands := by
  refine ⟨rfl, fun s t h => ?_⟩
  rcases step_next_cases h with ⟨hi, rfl⟩ | ⟨rest, hi, rfl⟩ | ⟨w, rest, why, hi, hd, rfl⟩ |
    ⟨w, rest, i, u, hi, hd, hu, rfl⟩
  · exact ⟨fun w ⟨_, hw⟩ => by simp [hi] at hw, fun ⟨_, hr⟩ => by simp [hi] at hr, fun _ => rfl⟩
  · exact ⟨fun w ⟨_, hw⟩ => by simp [hi] at hw, fun _ => rfl, fun hn => by simp [hi] at hn⟩
  · exact ⟨fun _ _ => rfl, fun ⟨_, hr⟩ => by simp [hi] at hr, fun hn => by simp [hi] at hn⟩
  · obtain ⟨hci, -, -⟩ := exec_next_frame hu
    exact ⟨fun _ _ => by rw [advanceIndex_ci, hci], fun ⟨_, hr⟩ => by simp [hi] at hr,
      fun hn => by simp [hi] at hn⟩

/-! ## The writers of each register -/

/-- From `s` to `t` the command `i` has changed only what it writes. -/
structure ChangesOnlyWhatItWrites (i : Instr) (s t : State) : Prop where
  cursor : t.cursor ≠ s.cursor → (∃ ch color, i = .putc ch color) ∨ i = .scroll
  bg : t.bg ≠ s.bg → ∃ color, i = .setbg color
  fg : t.fg ≠ s.fg → ∃ color, i = .setfg color
  front : t.front ≠ s.front → i = .commit
  back : t.back ≠ s.back → (∃ ch color, i = .putc ch color) ∨ (∃ ch color col row, i = .putat ch color col row) ∨
    i = .scroll ∨ (∃ color, i = .setbg color) ∨ i = .commit

/-- In every case of `exec`, a field is either one the command writes or, by the field's own lemma, unchanged. -/
theorem exec_changesOnlyWhatItWrites {i : Instr} {s t : State} (h : exec i s = .next t) :
    ChangesOnlyWhatItWrites i s t := by
  rcases exec_next_cases h with ⟨_, rfl, rfl⟩ | ⟨_, _, rfl, -, _, rfl⟩ | ⟨_, _, _, _, rfl, _, rfl⟩ |
    ⟨_, _, _, _, rfl, -, rfl⟩ | ⟨_, rfl, rfl⟩ | ⟨_, rfl, rfl⟩ | ⟨rfl, rfl⟩ | ⟨rfl, -, rfl⟩ | ⟨rfl, rfl⟩ |
    ⟨rfl, rfl⟩ <;> constructor <;> simp

theorem step_params {s t : State} (h : step s = .next t) : t.params = s.params := by
  rcases step_next_cases h with ⟨-, rfl⟩ | ⟨rest, -, rfl⟩ | ⟨w, rest, why, -, -, rfl⟩ |
    ⟨w, rest, i, u, -, -, hu, rfl⟩
  · rfl
  · rfl
  · rfl
  · obtain ⟨-, -, hparams⟩ := exec_next_frame hu
    exact hparams

theorem step_changesOnlyWhatIsWritten {s t : State} (h : step s = .next t) (hr : ¬ NextIsReset s) :
    (t.cursor = s.cursor ∧ t.bg = s.bg ∧ t.fg = s.fg ∧ t.front = s.front ∧ t.back = s.back) ∨
    ∃ i, NextIsCommand s i ∧ ChangesOnlyWhatItWrites i s t := by
  rcases step_next_cases_of_not_reset h hr with ⟨-, hn⟩ | ⟨i, rest, u, hi, hu, rfl⟩
  · obtain ⟨hcursor, hbg, hfg, hfront, hback, -⟩ := hn
    exact .inl ⟨hcursor, hbg, hfg, hfront, hback⟩
  · obtain ⟨hcursor, hbg, hfg, hfront, hback⟩ := exec_changesOnlyWhatItWrites hu
    exact .inr ⟨i, hi, hcursor, hbg, hfg, hfront, hback⟩

/-- Settles O52: the writers of each register are those of the command the step runs. -/
theorem eachRegisterHasItsWriters : Obligations.EachRegisterHasItsWriters := by
  intro s t h
  refine ⟨step_params h, fun hr => ?_⟩
  rcases step_changesOnlyWhatIsWritten h hr with ⟨hcursor, hbg, hfg, hfront, hback⟩ | ⟨i, hi, hw⟩
  · exact ⟨fun hne => absurd hcursor hne, fun hne => absurd hbg hne, fun hne => absurd hfg hne,
      fun hne => absurd hfront hne, fun hne => absurd hback hne⟩
  · refine ⟨fun hne => ?_, fun hne => ?_, fun hne => ?_, fun hne => ?_, fun hne => ?_⟩
    · rcases hw.cursor hne with ⟨ch, color, rfl⟩ | rfl
      · exact .inl ⟨ch, color, hi⟩
      · exact .inr hi
    · obtain ⟨color, rfl⟩ := hw.bg hne
      exact ⟨color, hi⟩
    · obtain ⟨color, rfl⟩ := hw.fg hne
      exact ⟨color, hi⟩
    · obtain rfl := hw.front hne
      exact hi
    · rcases hw.back hne with ⟨ch, color, rfl⟩ | ⟨ch, color, col, row, rfl⟩ | rfl | ⟨color, rfl⟩ | rfl
      · exact .inl ⟨ch, color, hi⟩
      · exact .inr (.inl ⟨ch, color, col, row, hi⟩)
      · exact .inr (.inr (.inl hi))
      · exact .inr (.inr (.inr (.inl ⟨color, hi⟩)))
      · exact .inr (.inr (.inr (.inr hi)))

/-! ## `FG` is not read -/

/-- Two states that differ at most in `FG`. -/
def SameButForeground (s s' : State) : Prop := ∃ c, s' = { s with fg := c }

/-- An operation keeps the relation if it does from the state with any other `FG`. -/
theorem SameButForeground.map {op : State → State} {s s' : State} (h : SameButForeground s s')
    (hop : ∀ c, SameButForeground (op s) (op { s with fg := c })) : SameButForeground (op s) (op s') := by
  obtain ⟨c, rfl⟩ := h
  exact hop c

/-- No operation reads `FG`; SETFG and reset overwrite it. -/
theorem keptByOps_sameButForeground : KeptByOps SameButForeground where
  inputs := by rintro _ _ ⟨c, rfl⟩; rfl
  params := by rintro _ _ ⟨c, rfl⟩; rfl
  cursor := by rintro _ _ ⟨c, rfl⟩; rfl
  draws := by rintro _ _ ⟨c, rfl⟩; rfl
  setInputs l h := h.map (op := fun s => { s with inputs := l }) fun c => ⟨c, rfl⟩
  setCursor x h := h.map (op := fun s => { s with cursor := x }) fun c => ⟨c, rfl⟩
  setFg x h := h.map (op := fun s => { s with fg := x }) fun _ => ⟨x, rfl⟩
  advanceIndex h := h.map fun c => ⟨c, rfl⟩
  portWrite _ _ h := h.map fun c => ⟨c, rfl⟩
  portRead _ _ h := h.map fun c => ⟨c, rfl⟩
  raiseError _ _ h := h.map fun c => ⟨c, rfl⟩
  stage _ _ _ h := h.map fun c => ⟨c, rfl⟩
  scroll h := h.map fun c => ⟨c, rfl⟩
  repaintAll _ h := h.map fun c => ⟨c, rfl⟩
  commitStaged h := h.map fun c => ⟨c, rfl⟩
  assertReset {s _} h := h.map fun _ => ⟨s.params.resetFg, rfl⟩

theorem step_fg {s t : State} (h : step s = .next t) (hr : ¬ NextIsReset s)
    (hf : ¬ ∃ color, NextIsCommand s (.setfg color)) : t.fg = s.fg := by
  by_contra hne
  obtain ⟨-, -, hfg, -, -⟩ := (eachRegisterHasItsWriters s t h).2 hr
  exact hf (hfg hne)

/-- Settles O42: the two runs differ at most in `FG`, and the step keeps the value of `FG` given. -/
theorem foregroundRegisterIsNotRead : Obligations.ForegroundRegisterIsNotRead := by
  intro s c hr hf
  obtain ⟨hnext, hfault⟩ := (keptByOps_sameButForeground.step ⟨c, rfl⟩).next_and_fault
  refine ⟨fun t ht => ?_, hfault⟩
  obtain ⟨t', ht', c', rfl⟩ := hnext t ht
  have hc : c' = c := step_fg ht' hr hf
  rw [ht', hc]

/-! ## The pending scroll -/

theorem takePendingScroll_eq_of_ne {s : State}
    (h : (takePendingScroll s).cursor.toNat ≠ lastRowStart) : takePendingScroll s = s := by
  by_cases hc : s.cursor.toNat = cells
  · rw [takePendingScroll_of_eq s hc, scroll_cursor_toNat] at h
    exact absurd rfl h
  · exact takePendingScroll_of_ne s hc

/-- Staging at the cursor and advancing reaches the pending scroll only from the last cell (40_output.md R102). -/
theorem advanceOne_stage_pending {s : State} {ch : Byte} {color : Color} (hlt : s.cursor.toNat < cells)
    (hp : (advanceOne (stage ⟨s.cursor.toNat, hlt⟩ ch color s)).cursor.toNat = cells) :
    s.cursor.toNat = cells - 1 ∧
      (advanceOne (stage ⟨s.cursor.toNat, hlt⟩ ch color s)).back[cells - 1]? =
        some (some ⟨ch, pack s.bg color⟩) := by
  rw [advanceOne_cursor_toNat (by rwa [stage_cursor]), stage_cursor] at hp
  have hlast : cells - 1 = s.cursor.toNat := by omega
  refine ⟨hlast.symm, ?_⟩
  rw [advanceOne_of_lt _ (by rwa [stage_cursor]), hlast, Vector.getElem?_eq_getElem hlt]
  exact congrArg some (Vector.getElem_set_self hlt)

/-- A newline leaves no pending scroll, and a character only by being staged at the last cell (40_output.md R103,
R104). -/
theorem execPutc_pending {ch : Byte} {color : Color} {s t : State} (h : execPutc ch color s = .next t)
    (hp : t.cursor.toNat = cells) :
    ch ≠ newline ∧ s.cursor.toNat = cells - 1 ∧
      t.back[cells - 1]? = some (some ⟨ch, pack s.bg color⟩) := by
  rcases execPutc_next h with ⟨-, rfl⟩ | ⟨hch, hlt, rfl⟩
  · have hle := newlineAdvance_cursor_le (takePendingScroll s)
    have hlt := lastRowStart_lt_cells
    omega
  · obtain ⟨hlast, hback⟩ := advanceOne_stage_pending hlt hp
    have hs : takePendingScroll s = s := takePendingScroll_eq_of_ne (by rw [hlast]; decide)
    rw [takePendingScroll_bg] at hback
    exact ⟨hch, by rw [← hs, hlast], hback⟩

/-- A command after which a scroll is pending is one that leaves the cursor alone, or a PUTC at the last cell. -/
theorem exec_pending {i : Instr} {s t : State} (h : exec i s = .next t) (hp : t.cursor.toNat = cells) :
    (t.cursor = s.cursor ∧ i ≠ .scroll ∧ ∀ ch color, i ≠ .putc ch color) ∨
    (s.cursor.toNat = cells - 1 ∧ ∃ ch color, ch ≠ newline ∧ i = .putc ch color ∧
      t.back[cells - 1]? = some (some ⟨ch, pack s.bg color⟩)) := by
  by_cases hputc : ∃ ch color, i = .putc ch color
  · obtain ⟨ch, color, rfl⟩ := hputc
    obtain ⟨hch, hlast, hback⟩ := execPutc_pending h hp
    exact .inr ⟨hlast, ch, color, hch, rfl, hback⟩
  · have hscroll : i ≠ .scroll := by
      rintro rfl
      cases h
      exact absurd hp lastRowStart_lt_cells.ne
    have hcursor : t.cursor = s.cursor := by
      by_contra hne
      exact ((exec_changesOnlyWhatItWrites h).cursor hne).elim hputc hscroll
    exact .inl ⟨hcursor, hscroll, fun ch color hi => hputc ⟨ch, color, hi⟩⟩

theorem Invariant.cursor_ne_cells_of_reset {s t : State} (hs : Invariant s) (h : step s = .next t)
    (hr : NextIsReset s) : t.cursor.toNat ≠ cells := by
  obtain ⟨rest, hi⟩ := hr
  rw [step_of_reset hi] at h
  cases h
  exact ((resetCursor_le_of_wellFormed hs.params).trans_lt lastRowStart_lt_cells).ne

/-- Settles O53: a reset leaves the reset cursor, a step without a command keeps the cursor, and of the commands
`exec_pending` speaks. -/
theorem pendingScrollComesFromTheLastCell : Obligations.PendingScrollComesFromTheLastCell := by
  intro s t hs h hp
  by_cases hr : NextIsReset s
  · exact absurd hp (hs.cursor_ne_cells_of_reset h hr)
  rcases step_next_cases_of_not_reset h hr with ⟨hno, hn⟩ | ⟨i, rest, u, hi, hu, rfl⟩
  · obtain ⟨hcursor, -⟩ := hn
    exact .inl ⟨by rw [← hcursor, hp], hr, hno .scroll, fun ch color => hno (.putc ch color)⟩
  · rcases exec_pending hu hp with ⟨hcursor, hscroll, hputc⟩ | ⟨hlast, ch, color, hch, rfl, hback⟩
    · exact .inl ⟨(congrArg BitVec.toNat hcursor).symm.trans hp, hr, fun hj => hscroll (hi.unique hj),
        fun ch color hj => hputc ch color (hi.unique hj)⟩
    · exact .inr ⟨hlast, ch, color, hch, hi, hback⟩

end Sys2Proof.Machine
end

section
/-! The two stops, the state after reset, and the registers the host reads (10_state.md R33 to R37, R41). -/

namespace Sys2Proof.Machine

open Sys2Proof.Config

/-- COMMIT stops where the region does not fit the address space (assumption 7). -/
theorem exec_commit_of_not_fits {s : State} (h : ¬ s.params.RegionFits) :
    exec .commit s = .fault .regionBeyondBus := if_neg h

/-- Settles O33: PUTC stages at the cursor, which must be on the grid, and COMMIT needs the region to fit. -/
theorem whereCommandsStop : Obligations.WhereCommandsStop :=
  ⟨fun _ _ color hcursor hch => exec_putc_offGrid color hch hcursor,
    fun _ h => exec_commit_of_not_fits (Nat.not_lt.2 h)⟩

/-- Settles O17: each field is the one `State.reset` is given, and the staged cell is the default blank cell. -/
theorem stateAfterReset : Obligations.StateAfterReset := by
  have hblank : blank defaults defaults.resetBg = ⟨0x20#8, 0x07#8⟩ := by decide
  have hback (i : Nat) (h : i < cells) : State.reset.back[i] = some ⟨0x20#8, 0x07#8⟩ := by
    rw [← hblank]
    exact Vector.getElem_replicate h
  exact ⟨rfl, rfl, rfl, hback, rfl, rfl, rfl, rfl, rfl, rfl, fun _ => rfl⟩

/-! ## STATUS -/

/-- `STATUS` with a clear record and no pending scroll (10_state.md R33). -/
theorem statusWord_eq_zero {s : State} (hrange : s.errRange = false) (hillegal : s.errIllegal = false)
    (hcause : s.errCause = 0#2) (hcursor : s.cursor.toNat ≠ cells) : statusWord s = 0#32 := by
  have hpending : scrollPending s = false := decide_eq_false hcursor
  rw [statusWord, hpending, hrange, hillegal, hcause]
  decide

theorem statusWord_cause (s : State) : (statusWord s).extractLsb 5 4 = s.errCause := by
  apply BitVec.eq_of_getLsbD_eq
  intro i hi
  rw [BitVec.extractLsb, BitVec.getLsbD_extractLsb', getLsbD_statusWord]
  simp (disch := omega) only [if_neg, if_pos, hi, decide_true, Bool.true_and, Nat.add_sub_cancel_left]

theorem statusWord_high (s : State) : (statusWord s).extractLsb 31 6 = 0#26 := by
  apply BitVec.eq_of_getLsbD_eq
  intro i hi
  rw [BitVec.extractLsb, BitVec.getLsbD_extractLsb', getLsbD_statusWord]
  simp (disch := omega) only [if_neg, Bool.and_false, BitVec.getLsbD_zero]

/-- Settles O46, by the bits of `STATUS`; the reset cursor 0 or 1920 is not the pending scroll. -/
theorem statusRegisterLayout : Obligations.StatusRegisterLayout := by
  refine ⟨fun s => ?_, ?_, fun s hvariant => ?_⟩
  · rw [readRegister_status]
    refine ⟨?_, ?_, ?_, ?_, statusWord_cause s, statusWord_high s⟩ <;> rw [getLsbD_statusWord]
    · rfl
    · rfl
    · exact decide_eq_true_iff
    · rfl
  · exact statusWord_eq_zero rfl rfl rfl (by decide)
  · refine statusWord_eq_zero rfl rfl rfl ?_
    rcases hvariant with h | h <;> rw [assertReset_cursor, h] <;> decide

/-! ## CURSOR, COLOR and ERR_WORD -/

/-- The bits of a register port value above the field it extends are zero (10_state.md R34, R35). -/
theorem extractLsb'_setWidth_above {n : Nat} (x : BitVec n) (m k : Nat) :
    (x.setWidth m).extractLsb' n k = 0#k := by
  apply BitVec.eq_of_getLsbD_eq
  intro i _
  rw [BitVec.getLsbD_extractLsb', BitVec.getLsbD_setWidth, BitVec.getLsbD_of_ge x (n + i) (by omega)]
  simp only [Bool.and_false, BitVec.getLsbD_zero]

/-- The field itself is read back from its register port value. -/
theorem extractLsb'_setWidth_field {n m : Nat} (x : BitVec n) (h : n ≤ m) :
    (x.setWidth m).extractLsb' 0 n = x := by
  rw [BitVec.extractLsb'_setWidth_of_le (by omega), BitVec.extractLsb'_eq_self]

theorem readRegister_color_fg (s : State) : (readRegister 2#8 s).extractLsb 3 0 = s.fg :=
  (BitVec.extractLsb'_setWidth_of_le (by decide)).trans (attrFg_pack s.bg s.fg)

theorem readRegister_color_bg (s : State) : (readRegister 2#8 s).extractLsb 7 4 = s.bg :=
  (BitVec.extractLsb'_setWidth_of_le (by decide)).trans (attrBg_pack s.bg s.fg)

theorem readRegister_cursor_field (s : State) : (readRegister 1#8 s).extractLsb 10 0 = s.cursor :=
  extractLsb'_setWidth_field s.cursor (by decide)

theorem readRegister_color_field (s : State) : (readRegister 2#8 s).extractLsb 7 0 = pack s.bg s.fg :=
  extractLsb'_setWidth_field (pack s.bg s.fg) (by decide)

/-- Settles O47: a register port value is its field, zero-extended. -/
theorem registerPortLayout : Obligations.RegisterPortLayout := by
  refine ⟨fun s => ?_, readRegister_unassigned, fun s => ?_, rfl, ?_, rfl⟩
  · exact ⟨readRegister_cursor_field s, extractLsb'_setWidth_above s.cursor 32 21, readRegister_color_fg s,
      readRegister_color_bg s, readRegister_color_field s, extractLsb'_setWidth_above (pack s.bg s.fg) 32 24, rfl⟩
  · exact ⟨readRegister_cursor_field (assertReset s), readRegister_color_field (assertReset s), rfl⟩
  · rw [readRegister_color]
    decide

end Sys2Proof.Machine
end

section
/-! The video region: what a COMMIT leaves in memory, that no other step stores, and that no step reads it
(20_memory.md R52, R53, R54, R62). -/

namespace Sys2Proof.Machine

open Sys2Proof.Config

/-! ## Memory after a COMMIT -/

theorem exec_commit_next {s t : State} (h : exec .commit s = .next t) : t = commitStaged s := by
  obtain ⟨-, ht⟩ := execCommit_next h
  exact ht

/-- A cell's character byte after a COMMIT: the staged cell's, or the byte that was there. -/
theorem commitStaged_read_charAddr {s : State} (hw : Memory.wf s.mem = true) {i : Nat} (h : i < cells) :
    (commitStaged s).mem.read (charAddr s.params i) =
      (s.back[i].map (·.ch)).or (s.mem.read (charAddr s.params i)) := by
  rw [commitStaged_read s hw, read_commitStores_charAddr s i h]

/-- A cell's color byte after a COMMIT: the staged cell's, or the byte that was there. -/
theorem commitStaged_read_attrAddr {s : State} (hw : Memory.wf s.mem = true) {i : Nat} (h : i < cells) :
    (commitStaged s).mem.read (attrAddr s.params i) =
      (s.back[i].map (·.attr)).or (s.mem.read (attrAddr s.params i)) := by
  rw [commitStaged_read s hw, read_commitStores_attrAddr s i h]

theorem commitStaged_read_elsewhere {s : State} (hw : Memory.wf s.mem = true) {a : Nat}
    (ha : ∀ (i : Nat) (h : i < cells), s.back[i].isSome = true →
      a ≠ charAddr s.params i ∧ a ≠ attrAddr s.params i) :
    (commitStaged s).mem.read a = s.mem.read a := by
  rw [commitStaged_read s hw, read_commitStores_elsewhere s a ha, Option.none_or]

/-- Settles O31, by what a read after a COMMIT gives at a staged cell's bytes and elsewhere. -/
theorem unwrittenBytesKeepTheirValue : Obligations.UnwrittenBytesKeepTheirValue := by
  intro s t hw h
  obtain rfl := exec_commit_next h
  refine ⟨fun i hi c hc => ⟨?_, ?_⟩, fun a ha => commitStaged_read_elsewhere hw ha⟩
  · have hread := commitStaged_read_charAddr hw hi
    rwa [hc] at hread
  · have hread := commitStaged_read_attrAddr hw hi
    rwa [hc] at hread

/-! ## Host reads -/

/-- What the host reads at an address is decided by the parameters and the byte stored there (20_memory.md R62). -/
theorem hostReadByte_congr {s t : State} {a : Nat} (hparams : t.params = s.params)
    (hread : t.mem.read a = s.mem.read a) : hostReadByte a t = hostReadByte a s := by
  rw [hostReadByte, hostReadByte, hparams, hread]

/-- A stored byte of the region is what the host reads there (20_memory.md R62). -/
theorem hostReadByte_of_stored {s : State} {a : Nat} {b : Byte} (hregion : inRegion s.params a = true)
    (hread : s.mem.read a = some b) : hostReadByte a s = some b := by
  rw [hostReadByte, if_pos hregion, hread, Option.getD_some]

/-- The 16-bit read of a cell is made of its two one-byte reads (20_memory.md R55). -/
theorem hostReadCellWord_of_bytes {s : State} {i : Nat} {ch attr : Byte}
    (hchar : hostReadByte (charAddr s.params i) s = some ch)
    (hattr : hostReadByte (attrAddr s.params i) s = some attr) :
    hostReadCellWord i s = some (attr ++ ch) := by
  rw [hostReadCellWord, hchar, hattr]

theorem exec_commit_of_mem_ne {i : Instr} {s t : State} (h : exec i s = .next t) :
    t.mem ≠ s.mem → i = .commit := by
  rcases exec_next_cases h with ⟨_, _, rfl⟩ | ⟨_, _, _, _, _, rfl⟩ | ⟨_, _, _, _, _, _, rfl⟩ |
    ⟨_, _, _, _, _, _, rfl⟩ | ⟨_, _, rfl⟩ | ⟨_, _, rfl⟩ | ⟨_, rfl⟩ | ⟨rfl, _, rfl⟩ | ⟨_, rfl⟩ |
    ⟨_, rfl⟩ <;> simp

/-- Only a COMMIT stores: every other step leaves memory as it is (20_memory.md R53). -/
theorem step_mem_of_not_commit {s t : State} (h : step s = .next t) (hc : ¬ NextIsCommand s .commit) :
    t.mem = s.mem := by
  rcases step_next_cases h with ⟨-, rfl⟩ | ⟨rest, -, rfl⟩ | ⟨w, rest, why, -, -, rfl⟩ |
    ⟨w, rest, i, u, hi, hd, hu, rfl⟩
  · rfl
  · rfl
  · rfl
  · by_contra hne
    obtain rfl := exec_commit_of_mem_ne hu hne
    exact hc ⟨w, ⟨rest, hi⟩, hd⟩

/-- Settles O48: a host read is decided by the byte stored, which only a COMMIT changes, and only in staged cells. -/
theorem hostReadsReturnTheLastStore : Obligations.HostReadsReturnTheLastStore := by
  refine ⟨fun s t hw h i hi => ?_, fun s t a h hc =>
    hostReadByte_congr (step_params h) (by rw [step_mem_of_not_commit h hc])⟩
  obtain rfl := exec_commit_next h
  have hchar := commitStaged_read_charAddr hw hi
  have hattr := commitStaged_read_attrAddr hw hi
  refine ⟨fun c hc => ?_, fun hn => ?_⟩
  · obtain ⟨hcharIn, hattrIn⟩ := inRegion_cellAddr s.params hi
    rw [hc] at hchar hattr
    have hcharRead := hostReadByte_of_stored (s := commitStaged s) hcharIn hchar
    have hattrRead := hostReadByte_of_stored (s := commitStaged s) hattrIn hattr
    exact ⟨hcharRead, hattrRead, hostReadCellWord_of_bytes hcharRead hattrRead⟩
  · rw [hn] at hchar hattr
    exact ⟨hostReadByte_congr rfl hchar, hostReadByte_congr rfl hattr⟩

/-! ## The region is not read -/

/-- Two states that differ at most in memory. -/
def SameButMemory (s s' : State) : Prop := ∃ m, s' = { s with mem := m }

/-- An operation keeps the relation if it does from the state with any other memory. -/
theorem SameButMemory.map {op : State → State} {s s' : State} (h : SameButMemory s s')
    (hop : ∀ m, SameButMemory (op s) (op { s with mem := m })) : SameButMemory (op s) (op s') := by
  obtain ⟨m, rfl⟩ := h
  exact hop m

/-- No operation reads memory: COMMIT's stores are decided by the slots, and they reach whatever memory there is. -/
theorem keptByOps_sameButMemory : KeptByOps SameButMemory where
  inputs := by rintro _ _ ⟨m, rfl⟩; rfl
  params := by rintro _ _ ⟨m, rfl⟩; rfl
  cursor := by rintro _ _ ⟨m, rfl⟩; rfl
  draws := by rintro _ _ ⟨m, rfl⟩; rfl
  setInputs l h := h.map (op := fun s => { s with inputs := l }) fun m => ⟨m, rfl⟩
  setCursor x h := h.map (op := fun s => { s with cursor := x }) fun m => ⟨m, rfl⟩
  setFg x h := h.map (op := fun s => { s with fg := x }) fun m => ⟨m, rfl⟩
  advanceIndex h := h.map fun m => ⟨m, rfl⟩
  portWrite _ _ h := h.map fun m => ⟨m, rfl⟩
  portRead _ _ h := h.map fun m => ⟨m, rfl⟩
  raiseError _ _ h := h.map fun m => ⟨m, rfl⟩
  stage _ _ _ h := h.map fun m => ⟨m, rfl⟩
  scroll h := h.map fun m => ⟨m, rfl⟩
  repaintAll _ h := h.map fun m => ⟨m, rfl⟩
  commitStaged {s _} h := h.map fun m => ⟨Memory.storeRising (commitStores s) m, rfl⟩
  assertReset h := h.map fun m => ⟨m, rfl⟩

/-- Settles O35: `SameButMemory` is a relation every operation keeps. -/
theorem theRegionIsNeverRead : Obligations.TheRegionIsNeverRead := by
  intro s m
  obtain ⟨hnext, hfault⟩ := (keptByOps_sameButMemory.step ⟨m, rfl⟩).next_and_fault
  refine ⟨fun t ht => ?_, hfault⟩
  obtain ⟨_, hu, _, rfl⟩ := hnext t ht
  exact ⟨_, hu, rfl⟩

end Sys2Proof.Machine
end

section
/-! The events of a step: which command emits them, and to which addresses and ports they go (20_memory.md R50,
R53, R57). -/

namespace Sys2Proof.Machine

open Sys2Proof.Config

/-- The events a command that completes appends to the history: COMMIT's stores, and the port accesses of
CURSOR_OFF and BLINK_TOGGLE (41_scroll_commit.md R122, 43_display_ports.md R151, R152). -/
def commandEvents (i : Instr) (s : State) : List Event :=
  match i with
  | .commit => (commitStores s).map fun c => .memWrite c.1 c.2
  | .cursorOff =>
    [.portWrite s.params.crtcIndex s.params.crtcCursorStart,
     .portWrite s.params.crtcData s.params.cursorDisableValue]
  | .blinkToggle =>
    [.portRead s.params.inputStatus1 (portDraw s.draws),
     .portWrite s.params.attrIndex s.params.attrModeSelect,
     .portRead s.params.attrDataRead (portDraw (s.draws + 1)),
     .portWrite s.params.attrIndex (portDraw (s.draws + 1) ^^^ s.params.blinkBit)]
  | _ => []

theorem exec_history {i : Instr} {s t : State} (h : exec i s = .next t) :
    t.history = s.history ++ commandEvents i s := by
  rcases exec_next_cases h with ⟨_, rfl, rfl⟩ | ⟨_, _, rfl, _, _, rfl⟩ | ⟨_, _, _, _, rfl, _, rfl⟩ |
    ⟨_, _, _, _, rfl, _, rfl⟩ | ⟨_, rfl, rfl⟩ | ⟨_, rfl, rfl⟩ | ⟨rfl, rfl⟩ | ⟨rfl, _, rfl⟩ |
    ⟨rfl, rfl⟩ | ⟨rfl, rfl⟩ <;> simp [commandEvents]

/-- A step only appends to the history, and what it appends are events of the command it runs (00_scope.md R12). -/
theorem step_history {s t : State} (h : step s = .next t) :
    ∃ es, t.history = s.history ++ es ∧ ∀ e ∈ es, ∃ i, NextIsCommand s i ∧ e ∈ commandEvents i s := by
  rcases step_next_cases h with ⟨-, rfl⟩ | ⟨rest, -, rfl⟩ | ⟨w, rest, why, -, -, rfl⟩ |
    ⟨w, rest, i, u, hi, hd, hu, rfl⟩
  · exact ⟨[], by simp, nofun⟩
  · exact ⟨[], by simp, nofun⟩
  · exact ⟨[], by simp, nofun⟩
  · exact ⟨commandEvents i s, by rw [advanceIndex_history, exec_history hu]; rfl,
      fun e he => ⟨i, ⟨w, ⟨rest, hi⟩, hd⟩, he⟩⟩

/-! ## Stores -/

theorem Memory.read_ne_none_of_mem {m : Memory} {a : Nat} {v : Byte} (h : (a, v) ∈ m) : m.read a ≠ none := by
  induction m with
  | nil => cases h
  | cons c m ih =>
    obtain ⟨x, w⟩ := c
    rw [Memory.read_cons]
    split
    · exact Option.some_ne_none w
    next hx =>
      rcases List.mem_cons.1 h with heq | htail
      · exact absurd (congrArg Prod.fst heq).symm hx
      · exact ih htail

/-- Every store of a COMMIT goes to a byte of a staged cell (41_scroll_commit.md R122). -/
theorem addr_of_mem_commitStores {s : State} {a : Nat} {v : Byte} (h : (a, v) ∈ commitStores s) :
    ∃ (i : Nat) (hi : i < cells), s.back[i].isSome = true ∧
      (a = charAddr s.params i ∨ a = attrAddr s.params i) := by
  by_contra hno
  refine Memory.read_ne_none_of_mem h (read_commitStores_elsewhere s a fun i hi hs => ?_)
  exact ⟨fun ha => hno ⟨i, hi, hs, .inl ha⟩, fun ha => hno ⟨i, hi, hs, .inr ha⟩⟩

theorem memWrite_mem_commandEvents {i : Instr} {s : State} {a : Nat} {v : Byte}
    (h : .memWrite a v ∈ commandEvents i s) : i = .commit ∧ (a, v) ∈ commitStores s := by
  cases i with
  | commit =>
    obtain ⟨c, hc, heq⟩ := List.mem_map.1 h
    cases heq
    exact ⟨rfl, hc⟩
  | _ => simp [commandEvents] at h

/-- Settles O34: only a COMMIT has stores among its events, and each is to a byte of a staged cell. -/
theorem onlyCommitStoresAndOnlyInTheRegion : Obligations.OnlyCommitStoresAndOnlyInTheRegion := by
  intro s t h
  obtain ⟨es, hes, hfrom⟩ := step_history h
  refine ⟨es, hes, fun a v he => ?_⟩
  obtain ⟨i, hi, hmem⟩ := hfrom _ he
  obtain ⟨rfl, hstore⟩ := memWrite_mem_commandEvents hmem
  obtain ⟨k, hk, -, ha⟩ := addr_of_mem_commitStores hstore
  obtain ⟨hchar, hattr⟩ := inRegion_cellAddr s.params hk
  refine ⟨hi, ⟨k, hk, ha⟩, inRegion_iff.1 ?_⟩
  rcases ha with rfl | rfl
  · exact hchar
  · exact hattr

/-! ## Port accesses -/

theorem portWrite_mem_commandEvents {i : Instr} {s : State} {p : Port} {v : Byte}
    (h : .portWrite p v ∈ commandEvents i s) :
    (i = .cursorOff ∧ (p = s.params.crtcIndex ∨ p = s.params.crtcData)) ∨
    (i = .blinkToggle ∧ p = s.params.attrIndex) := by
  cases i with
  | cursorOff =>
    exact .inl ⟨rfl, (List.mem_pair.1 h).imp (fun he => (Event.portWrite.inj he).1)
      fun he => (Event.portWrite.inj he).1⟩
  | blinkToggle =>
    simp [commandEvents] at h ⊢
    tauto
  | _ => simp [commandEvents] at h

theorem portRead_mem_commandEvents {i : Instr} {s : State} {p : Port} {v : Byte}
    (h : .portRead p v ∈ commandEvents i s) :
    i = .blinkToggle ∧ (p = s.params.inputStatus1 ∨ p = s.params.attrDataRead) := by
  cases i with
  | blinkToggle =>
    simp [commandEvents] at h ⊢
    tauto
  | _ => simp [commandEvents] at h

/-- Settles O45, by the port events among those of the command the step runs. -/
theorem portsAreAccessedOnlyByPortCommands : Obligations.PortsAreAccessedOnlyByPortCommands := by
  intro s t h
  obtain ⟨es, hes, hfrom⟩ := step_history h
  refine ⟨es, hes, fun p v he => ?_, fun p v he => ?_⟩
  · obtain ⟨i, hi, hmem⟩ := hfrom _ he
    rcases portWrite_mem_commandEvents hmem with ⟨rfl, hp⟩ | ⟨rfl, hp⟩
    · exact .inl ⟨hi, hp⟩
    · exact .inr ⟨hi, hp⟩
  · obtain ⟨i, hi, hmem⟩ := hfrom _ he
    obtain ⟨rfl, hp⟩ := portRead_mem_commandEvents hmem
    exact ⟨hi, hp⟩

end Sys2Proof.Machine
end

section
/-! Encoding and decoding: the fields a row of the opcode map fixes, the two round trips, and the words no row
meets (30_encoding.md R81 to R88). -/

namespace Sys2Proof

/-! ## From a word to its command -/

/-- A field that lies under the mask of a row is the row's own (30_encoding.md R86). -/
theorem extractLsb'_of_and_eq {w mask pattern : Word} {start len : Nat} (h : w &&& mask = pattern)
    (hm : mask.extractLsb' start len = BitVec.allOnes len) :
    w.extractLsb' start len = pattern.extractLsb' start len := by
  rw [← h, BitVec.extractLsb'_and, hm, BitVec.and_allOnes]

theorem fieldOp_formatN (op : BitVec 4) : fieldOp (formatN op) = op :=
  BitVec.extractLsb'_append_eq_left

/-- Below the opcode a format N word, and so the match column of every row, is zero (30_encoding.md R84, R86). -/
theorem extractLsb'_formatN (op : BitVec 4) {start len : Nat} (h : start + len ≤ 28) :
    (formatN op).extractLsb' start len = 0#len := by
  rw [formatN, BitVec.extractLsb'_append_eq_of_add_le h, BitVec.extractLsb'_zero]

/-- A word that meets the opcode and the common reserved bits of a row is the format P word of that opcode and its
own operand fields. -/
theorem formatP_of_and_eq {w mask : Word} {op : BitVec 4} (h : w &&& mask = formatN op)
    (hop : mask.extractLsb' 28 4 = BitVec.allOnes 4) (hreserved : mask.extractLsb' 24 4 = BitVec.allOnes 4) :
    formatP op (w.extractLsb' 19 5) (w.extractLsb' 12 7) (fieldColor w) (fieldCh w) = w := by
  have hfieldOp : fieldOp w = op := (extractLsb'_of_and_eq h hop).trans (fieldOp_formatN op)
  have hzero : w.extractLsb' 24 4 = 0#4 :=
    (extractLsb'_of_and_eq h hreserved).trans (extractLsb'_formatN op (by decide))
  have hw := formatP_fields w hzero
  rwa [hfieldOp] at hw

/-- The mask of the format N rows covers the whole word. -/
theorem and_wholeMask (w : Word) : w &&& 0xFFFFFFFF#32 = w := BitVec.and_allOnes

theorem encode_putc_of_and_eq {w : Word} (h : w &&& 0xFFFFF000#32 = 0x10000000#32) :
    encode (.putc (fieldCh w) (fieldColor w)) = w := by
  have hrow : w.extractLsb' 19 5 = 0#5 := extractLsb'_of_and_eq h (by decide)
  have hcol : w.extractLsb' 12 7 = 0#7 := extractLsb'_of_and_eq h (by decide)
  have hw := formatP_of_and_eq (op := 0x1#4) h (by decide) (by decide)
  rwa [hrow, hcol] at hw

theorem encode_putat_of_and_eq {w : Word} (h : w &&& 0xFF000000#32 = 0x20000000#32) :
    encode (.putat (fieldCh w) (fieldColor w) (fieldCol w) (fieldRow w)) = w := by
  have hw := formatP_of_and_eq (op := 0x2#4) h (by decide) (by decide)
  rwa [encode, fieldCol, fieldRow, BitVec.ofNat_toNat, BitVec.ofNat_toNat, BitVec.setWidth_eq,
    BitVec.setWidth_eq]

theorem formatK_of_and_eq {w : Word} {op : BitVec 4} (h : w &&& 0xFFFFF0FF#32 = formatN op) :
    formatK op (fieldColor w) = w := by
  have hzero {start len : Nat} (hm : (0xFFFFF0FF#32).extractLsb' start len = BitVec.allOnes len)
      (hle : start + len ≤ 28) : w.extractLsb' start len = 0#len :=
    (extractLsb'_of_and_eq h hm).trans (extractLsb'_formatN op hle)
  have hrow : w.extractLsb' 19 5 = 0#5 := hzero (by decide) (by decide)
  have hcol : w.extractLsb' 12 7 = 0#7 := hzero (by decide) (by decide)
  have hch : fieldCh w = 0#8 := hzero (by decide) (by decide)
  have hw := formatP_of_and_eq h (by decide) (by decide)
  rwa [hrow, hcol, hch, ← formatK_eq_formatP] at hw

/-- Settles O5: the row a word meets fixes every bit of it that is no operand. -/
theorem encodeOfDecode : Obligations.EncodeOfDecode := by
  intro w i h
  rcases decode_command_cases h with ⟨hw, rfl⟩ | ⟨hw, rfl⟩ | ⟨hw, rfl⟩ | ⟨hw, rfl⟩ | ⟨hw, rfl⟩ |
    ⟨hw, rfl⟩ | ⟨hw, rfl⟩ | ⟨hw, rfl⟩
  · exact ⟨encode_putc_of_and_eq hw, rfl⟩
  · refine ⟨encode_putat_of_and_eq hw, ?_⟩
    have hcol : fieldCol w < 128 := (w.extractLsb' 12 7).isLt
    have hrow : fieldRow w < 32 := (w.extractLsb' 19 5).isLt
    simp only [Instr.wellFormed, hcol, hrow, decide_true, Bool.and_true]
  · exact ⟨formatK_of_and_eq (op := 0x3#4) hw, rfl⟩
  · exact ⟨formatK_of_and_eq (op := 0x4#4) hw, rfl⟩
  all_goals exact ⟨hw.symm.trans (and_wholeMask w), rfl⟩

/-! ## From a command to its word and back -/

/-- The decoder's equation for the `k`-th row of the opcode map. -/
theorem decode_of_and_eq {w : Word} (k : Nat) (hk : k < opcodeTable.length)
    (h : w &&& opcodeTable[k].mask = opcodeTable[k].pattern) :
    decode w = .command (opcodeTable[k].build w) :=
  decode_of_hits (List.getElem_mem hk) (beq_iff_eq.2 h)

/-- Masking a format P word masks its fields one by one. -/
theorem formatP_and (op mop : BitVec 4) (row mrow : BitVec 5) (col mcol : BitVec 7) (color mcolor : Color)
    (ch mch : Byte) :
    (op ++ 0#4 ++ row ++ col ++ color ++ ch) &&& (mop ++ 15#4 ++ mrow ++ mcol ++ mcolor ++ mch) =
      (op &&& mop) ++ 0#4 ++ (row &&& mrow) ++ (col &&& mcol) ++ (color &&& mcolor) ++ (ch &&& mch) := by
  simp only [BitVec.and_append, BitVec.zero_and]

theorem decode_encode_putc (ch : Byte) (color : Color) :
    decode (encode (.putc ch color)) = .command (.putc ch color) := by
  have hhit : encode (.putc ch color) &&& 0xFFFFF000#32 = 0x10000000#32 := by
    have h := formatP_and 0x1#4 15#4 0#5 31#5 0#7 127#7 color 0#4 ch 0#8
    rwa [BitVec.and_zero, BitVec.and_zero] at h
  rw [decode_of_and_eq 0 (by decide) hhit]
  show Decoded.command (.putc (fieldCh _) (fieldColor _)) = _
  rw [encode, fieldCh_formatP, fieldColor_formatP]

theorem decode_encode_putat (ch : Byte) (color : Color) {col row : Nat} (hcol : col < 128) (hrow : row < 32) :
    decode (encode (.putat ch color col row)) = .command (.putat ch color col row) := by
  have hhit : encode (.putat ch color col row) &&& 0xFF000000#32 = 0x20000000#32 := by
    have h := formatP_and 0x2#4 15#4 (.ofNat 5 row) 0#5 (.ofNat 7 col) 0#7 color 0#4 ch 0#8
    rwa [BitVec.and_zero, BitVec.and_zero, BitVec.and_zero, BitVec.and_zero] at h
  rw [decode_of_and_eq 1 (by decide) hhit]
  show Decoded.command (.putat (fieldCh _) (fieldColor _) (fieldCol _) (fieldRow _)) = _
  rw [encode, fieldCh_formatP, fieldColor_formatP, fieldCol_formatP, fieldRow_formatP, BitVec.toNat_ofNat,
    BitVec.toNat_ofNat, Nat.mod_eq_of_lt hcol, Nat.mod_eq_of_lt hrow]

/-- The mask of SETBG and SETFG leaves of a format K word the opcode. -/
theorem formatK_and (op : BitVec 4) (color : Color) :
    (op ++ 0#16 ++ color ++ 0#8) &&& (BitVec.allOnes 4 ++ 0xFFFF#16 ++ 0#4 ++ 0xFF#8) =
      op ++ 0#16 ++ 0#4 ++ 0#8 := by
  simp only [BitVec.and_append, BitVec.zero_and, BitVec.and_zero, BitVec.and_allOnes]

theorem fieldColor_formatK (op : BitVec 4) (color : Color) : fieldColor (formatK op color) = color := by
  rw [formatK_eq_formatP, fieldColor_formatP]

theorem decode_encode_setbg (color : Color) : decode (encode (.setbg color)) = .command (.setbg color) := by
  have hhit : encode (.setbg color) &&& 0xFFFFF0FF#32 = 0x30000000#32 := formatK_and 0x3#4 color
  rw [decode_of_and_eq 2 (by decide) hhit]
  exact congrArg (fun c => Decoded.command (.setbg c)) (fieldColor_formatK 0x3#4 color)

theorem decode_encode_setfg (color : Color) : decode (encode (.setfg color)) = .command (.setfg color) := by
  have hhit : encode (.setfg color) &&& 0xFFFFF0FF#32 = 0x40000000#32 := formatK_and 0x4#4 color
  rw [decode_of_and_eq 3 (by decide) hhit]
  exact congrArg (fun c => Decoded.command (.setfg c)) (fieldColor_formatK 0x4#4 color)

/-- Settles O4: the word of a command meets the command's own row, and holds its operands in their fields. -/
theorem decodeOfEncode : Obligations.DecodeOfEncode := by
  intro i hi
  cases i with
  | putc ch color => exact decode_encode_putc ch color
  | putat ch color col row =>
    obtain ⟨hcol, hrow⟩ : col < 128 ∧ row < 32 := by simpa [Instr.wellFormed] using hi
    exact decode_encode_putat ch color hcol hrow
  | setbg color => exact decode_encode_setbg color
  | setfg color => exact decode_encode_setfg color
  | scroll => decide
  | commit => decide
  | cursorOff => decide
  | blinkToggle => decide

/-! ## The opcode map, and where the fields stand -/

/-- Settles O2: each clause is the decoder's equation for one row, and the last says that no row is met. -/
theorem decodingFollowsTheOpcodeMap : Obligations.DecodingFollowsTheOpcodeMap := by
  intro w
  refine ⟨decode_of_and_eq 0 (by decide), decode_of_and_eq 1 (by decide), decode_of_and_eq 2 (by decide),
    decode_of_and_eq 3 (by decide), ?_, ?_, ?_, ?_, fun hputc hputat hsetbg hsetfg hscroll hcommit hoff hblink => ?_⟩
  · rintro rfl; decide
  · rintro rfl; decide
  · rintro rfl; decide
  · rintro rfl; decide
  · apply decode_of_no_hit
    simp [opcodeTable, OpcodeRow.hits, and_wholeMask, hputc, hputat, hsetbg, hsetfg, hscroll, hcommit, hoff, hblink]

/-- Settles O1, by evaluating the decoder. -/
theorem writtenOutWordsDecode : Obligations.WrittenOutWordsDecode := by
  unfold Obligations.WrittenOutWordsDecode
  decide

/-- With no coordinates, the 16 bits between opcode and color are zero (30_encoding.md R82, R83). -/
theorem reserved_formatP_of_no_coordinates (op : BitVec 4) (color : Color) (ch : Byte) :
    (formatP op 0#5 0#7 color ch).extractLsb 27 12 = 0#16 := by
  apply BitVec.eq_of_getLsbD_eq
  intro i hi
  rw [BitVec.extractLsb, BitVec.getLsbD_extractLsb', getLsbD_formatP]
  simp (disch := omega) only [if_neg, if_pos, BitVec.getLsbD_zero, ite_self, Bool.and_false]

/-- The four fields of a format K word (30_encoding.md R83). -/
theorem fields_formatK (op : BitVec 4) (color : Color) :
    (formatK op color).extractLsb 31 28 = op ∧ (formatK op color).extractLsb 27 12 = 0#16 ∧
      (formatK op color).extractLsb 11 8 = color ∧ (formatK op color).extractLsb 7 0 = 0#8 := by
  rw [formatK_eq_formatP]
  exact ⟨fieldOp_formatP .., reserved_formatP_of_no_coordinates .., fieldColor_formatP .., fieldCh_formatP ..⟩

/-- Settles O3, by the fields of formats P and K; the format N words are evaluated. -/
theorem encodedFieldsStandWhereTheFormatsPutThem : Obligations.EncodedFieldsStandWhereTheFormatsPutThem := by
  refine ⟨fun ch color => ?_, fun ch color col row hcol hrow => ?_, fun color => ?_, by decide, by decide, by decide,
    by decide⟩
  · exact ⟨fieldOp_formatP .., reserved_formatP_of_no_coordinates .., fieldColor_formatP .., fieldCh_formatP ..⟩
  · refine ⟨fieldOp_formatP .., Laws.CommonFields.reserved_formatP .., (fieldRow_formatP ..).trans ?_,
      (fieldCol_formatP ..).trans ?_, fieldColor_formatP .., fieldCh_formatP ..⟩
    · rw [BitVec.toNat_ofNat, Nat.mod_eq_of_lt hrow]
    · rw [BitVec.toNat_ofNat, Nat.mod_eq_of_lt hcol]
  · obtain ⟨hopBg, hreservedBg, hcolorBg, hlowBg⟩ := fields_formatK 0x3#4 color
    obtain ⟨hopFg, hreservedFg, hcolorFg, hlowFg⟩ := fields_formatK 0x4#4 color
    exact ⟨hopBg, hopFg, hreservedBg, hreservedFg, hcolorBg, hcolorFg, hlowBg, hlowFg⟩

/-! ## Rejected words -/

/-- A word that meets a row has no one in a bit the row's format reserves: the bits under the mask below the
opcode (30_encoding.md R82 to R84, R86). -/
theorem reserved_of_hits {r : OpcodeRow} {w : Word} (hr : r ∈ opcodeTable) (h : r.hits w = true) :
    w &&& (r.mask &&& 0x0FFFFFFF#32) = 0#32 := by
  have hpattern : ∀ r ∈ opcodeTable, r.pattern &&& 0x0FFFFFFF#32 = 0#32 := by decide
  rw [OpcodeRow.hits, beq_iff_eq] at h
  rw [← BitVec.and_assoc, h, hpattern r hr]

/-- The opcode tells the row, and so its mask. -/
theorem mask_eq_of_fieldOp_eq :
    ∀ r ∈ opcodeTable, ∀ r' ∈ opcodeTable, fieldOp r.pattern = fieldOp r'.pattern → r.mask = r'.mask := by
  decide

/-- A word with the opcode of a row and a one in a bit that row reserves is ILLEGAL (30_encoding.md R87). -/
theorem decode_of_reserved_bit {w reserved : Word} {op : BitVec 4}
    (hrow : ∃ r ∈ opcodeTable, fieldOp r.pattern = op ∧ r.mask &&& 0x0FFFFFFF#32 = reserved)
    (hop : fieldOp w = op) (hbit : w &&& reserved ≠ 0#32) : ∃ why, decode w = .illegal why := by
  obtain ⟨r, hr, hpattern, hmask⟩ := hrow
  refine decode_of_no_hit fun r' hr' => ?_
  by_contra hhit
  rw [Bool.not_eq_false] at hhit
  have hsame : r.mask = r'.mask :=
    mask_eq_of_fieldOp_eq r hr r' hr' (by rw [hpattern, ← hop, fieldOp_of_hits hr' hhit])
  rw [← hmask, hsame] at hbit
  exact hbit (reserved_of_hits hr' hhit)

/-- A word whose opcode no row has is ILLEGAL (30_encoding.md R88). -/
theorem decode_of_reserved_opcode {w : Word} (h : fieldOp w = 0x0#4 ∨ 0x9 ≤ (fieldOp w).toNat) :
    ∃ why, decode w = .illegal why := by
  have hassigned : ∀ r ∈ opcodeTable, fieldOp r.pattern ≠ 0x0#4 ∧ (fieldOp r.pattern).toNat < 0x9 := by decide
  refine decode_of_no_hit fun r hr => ?_
  by_contra hhit
  rw [Bool.not_eq_false] at hhit
  obtain ⟨hne, hlt⟩ := hassigned r hr
  rw [fieldOp_of_hits hr hhit] at h
  exact h.elim hne (Nat.not_le.2 hlt)

end Sys2Proof
end

section
/-! Rejected words in a step, and commands that are no NOP (30_encoding.md R87, R88). -/

namespace Sys2Proof.Machine

open Sys2Proof.Config

/-- What the step that takes a rejected word does (60_exceptions.md R171, R172). -/
theorem step_of_illegal {s : State} {w : Word} {rest : List Input} (hi : s.inputs = .command w :: rest)
    (hd : ∃ why, decode w = .illegal why) :
    ∃ t, step s = .next t ∧ t.inputs = rest ∧ t.ci = s.ci + 1 ∧ NothingButErrors s t ∧
      RecordsError 1#2 w s t := by
  obtain ⟨why, hw⟩ := hd
  refine ⟨advanceIndex (raiseError .illegal w { s with inputs := rest }), ?_, rfl, rfl, ?_, ?_⟩
  · rw [step_of_word hi, runWord_of_illegal hw]
  · exact nothingButErrors_raiseError .illegal w { s with inputs := rest }
  · exact recordsError_raiseError .illegal w { s with inputs := rest }

/-- Settles O8: each clause names a row of the opcode map by its opcode, and the bits that row reserves. -/
theorem reservedBitsAreRejected : Obligations.ReservedBitsAreRejected := by
  refine ⟨fun s w rest hi h => ?_, fun w w' i hw hw' => ?_⟩
  · have hd : ∃ why, decode w = .illegal why := by
      rcases h with ⟨hop, hbit⟩ | ⟨hop, hbit⟩ | ⟨hop | hop, hbit⟩ | ⟨hop | hop | hop | hop, hbit⟩ <;>
        exact decode_of_reserved_bit (by decide) hop hbit
    exact ⟨hd, step_of_illegal hi hd⟩
  · obtain ⟨hencode, -⟩ := encodeOfDecode w i hw
    obtain ⟨hencode', -⟩ := encodeOfDecode w' i hw'
    exact hencode.symm.trans hencode'

/-! ## No command is a NOP -/

/-- PUTC of a character with the cursor on the grid stages at the cursor and advances (40_output.md R104). -/
theorem exec_putc_of_lt {s : State} {ch : Byte} (color : Color) (hc : ch ≠ newline) (h : s.cursor.toNat < cells) :
    exec (.putc ch color) s = .next (advanceOne (stage ⟨s.cursor.toNat, h⟩ ch color s)) := by
  show putAtCursor ch color (takePendingScroll s) = _
  rw [takePendingScroll_of_ne s h.ne, putAtCursor, if_neg hc, dif_pos h]

theorem exec_putc_newline (s : State) (color : Color) :
    exec (.putc newline color) s = .next (newlineAdvance (takePendingScroll s)) := execPutc_newline s color

theorem advanceOne_ne {s : State} (i : Fin cells) (ch : Byte) (color : Color) (h : s.cursor.toNat < cells) :
    advanceOne (stage i ch color s) ≠ s := fun he => by
  have hcursor : (advanceOne (stage i ch color s)).cursor.toNat = s.cursor.toNat + 1 :=
    advanceOne_cursor_toNat (s := stage i ch color s) h
  rw [he] at hcursor
  omega

theorem stage_ne_of_unstaged {s : State} {i : Fin cells} (ch : Byte) (color : Color) (h : s.back[i.val] = none) :
    stage i ch color s ≠ s := fun he => by
  have hslot : (stage i ch color s).back[i.val] = some ⟨ch, pack s.bg color⟩ := Vector.getElem_set_self i.isLt
  rw [he, h] at hslot
  cases hslot

theorem commitStaged_ne_of_staged {s : State} {i : Nat} {hi : i < cells} {c : Cell} (h : s.back[i] = some c) :
    commitStaged s ≠ s := fun he => by
  have hslot := commitStaged_back_getElem s i hi
  rw [he, h] at hslot
  cases hslot

theorem ne_not_color (color : Color) : color ≠ ~~~color := by
  revert color
  decide

/-- Each command changes some field of some state: of the one after reset, or of one that differs from it in a
color or has nothing staged (30_encoding.md R88). -/
theorem exec_has_effect (i : Instr) : ∃ s t, exec i s = .next t ∧ t ≠ s := by
  cases i with
  | putc ch color =>
    by_cases hc : ch = newline
    · subst hc
      exact ⟨State.reset, _, exec_putc_newline _ color, fun h => absurd (congrArg State.cursor h) (by decide)⟩
    · have hgrid : State.reset.cursor.toNat < cells := by decide
      exact ⟨State.reset, _, exec_putc_of_lt color hc hgrid, advanceOne_ne _ ch color hgrid⟩
  | putat ch color col row =>
    by_cases hg : InGrid col row
    · exact ⟨{ State.reset with back := Vector.replicate cells none }, _, exec_putat_of_inGrid _ ch color hg,
        stage_ne_of_unstaged ch color (Vector.getElem_replicate _)⟩
    · exact ⟨State.reset, _, exec_putat_of_not_inGrid _ ch color hg, fun h => nomatch congrArg State.errRange h⟩
  | setbg color =>
    exact ⟨{ State.reset with bg := ~~~color }, _, rfl, fun h => ne_not_color color (congrArg State.bg h)⟩
  | setfg color =>
    exact ⟨{ State.reset with fg := ~~~color }, _, rfl, fun h => ne_not_color color (congrArg State.fg h)⟩
  | scroll => exact ⟨State.reset, _, rfl, fun h => absurd (congrArg State.cursor h) (by decide)⟩
  | commit =>
    exact ⟨State.reset, _, exec_commit_of_fits (by decide),
      commitStaged_ne_of_staged (i := 0) (hi := by decide) (Vector.getElem_replicate _)⟩
  | cursorOff => exact ⟨State.reset, _, rfl, fun h => nomatch congrArg State.history h⟩
  | blinkToggle => exact ⟨State.reset, _, rfl, fun h => nomatch congrArg State.draws h⟩

/-- Settles O9: no row has the opcode, and every command has an effect. -/
theorem reservedOpcodesAreRejected : Obligations.ReservedOpcodesAreRejected := by
  refine ⟨fun s w rest hi h => ?_, ⟨.reservedOpcode, by decide⟩, exec_has_effect⟩
  have hd := decode_of_reserved_opcode h
  exact ⟨hd, step_of_illegal hi hd⟩

end Sys2Proof.Machine
end

section
/-! Runs of characters, and the assembler's lines (30_encoding.md R91 to R93, 40_output.md R104, 90_conflicts.md
C6). -/

namespace Sys2Proof.Machine

open Sys2Proof.Config

/-! ## Characters that fit -/

/-- From `s` to `t` the characters have been staged one after another from the cursor on, and nothing else has
changed but the cursor and the index, which advance by as many. -/
structure StagesCharacters (chars : List Byte) (color : Color) (s t : State) : Prop where
  cursor : t.cursor.toNat = s.cursor.toNat + chars.length
  ci : t.ci = s.ci + chars.length
  staged (k : Nat) (h : k < chars.length) :
    t.back[s.cursor.toNat + k]? = some (some ⟨chars[k], pack s.bg color⟩)
  kept (i : Nat) (h : i < cells) (hi : i < s.cursor.toNat ∨ s.cursor.toNat + chars.length ≤ i) :
    t.back[i] = s.back[i]
  front : t.front = s.front
  bg : t.bg = s.bg
  history : t.history = s.history
  mem : t.mem = s.mem

theorem StagesCharacters.nil (color : Color) (s : State) : StagesCharacters [] color s s where
  cursor := rfl
  ci := rfl
  staged _ h := absurd h (Nat.not_lt_zero _)
  kept _ _ _ := rfl
  front := rfl
  bg := rfl
  history := rfl
  mem := rfl

/-- The state after one PUTC of a character with the cursor on the grid. -/
def afterCharacter (ch : Byte) (color : Color) (s : State) (h : s.cursor.toNat < cells) : State :=
  advanceIndex (advanceOne (stage ⟨s.cursor.toNat, h⟩ ch color s))

section

variable (ch : Byte) (color : Color) {s : State} (h : s.cursor.toNat < cells)

theorem afterCharacter_cursor_toNat : (afterCharacter ch color s h).cursor.toNat = s.cursor.toNat + 1 :=
  advanceOne_cursor_toNat (s := stage ⟨s.cursor.toNat, h⟩ ch color s) h

theorem afterCharacter_back : (afterCharacter ch color s h).back =
    s.back.set s.cursor.toNat (some ⟨ch, pack s.bg color⟩) h :=
  congrArg State.back (advanceOne_of_lt (stage ⟨s.cursor.toNat, h⟩ ch color s) h)

theorem afterCharacter_ci : (afterCharacter ch color s h).ci = s.ci + 1 := by
  simp [afterCharacter]

theorem afterCharacter_front : (afterCharacter ch color s h).front = s.front := by
  simp [afterCharacter]

theorem afterCharacter_bg : (afterCharacter ch color s h).bg = s.bg := by
  simp [afterCharacter]

theorem afterCharacter_history : (afterCharacter ch color s h).history = s.history := by
  simp [afterCharacter]

theorem afterCharacter_mem : (afterCharacter ch color s h).mem = s.mem := by
  simp [afterCharacter]

end

/-- One character, and the rest from the next cell on: the rest leaves the first one's slot alone. -/
theorem StagesCharacters.cons {ch : Byte} {chars : List Byte} {color : Color} {s t : State}
    (h : s.cursor.toNat < cells) (hrest : StagesCharacters chars color (afterCharacter ch color s h) t) :
    StagesCharacters (ch :: chars) color s t where
  cursor := by
    rw [hrest.cursor, afterCharacter_cursor_toNat, List.length_cons, Nat.add_right_comm, Nat.add_assoc]
  ci := by rw [hrest.ci, afterCharacter_ci, List.length_cons, Nat.add_right_comm, Nat.add_assoc]
  staged k hk := by
    cases k with
    | zero =>
      have hfirst := hrest.kept s.cursor.toNat h (.inl (by rw [afterCharacter_cursor_toNat]; omega))
      rw [Nat.add_zero, Vector.getElem?_eq_getElem h, hfirst]
      simp only [afterCharacter_back, Vector.getElem_set_self, List.getElem_cons_zero]
    | succ k =>
      have hnext := hrest.staged k (Nat.lt_of_succ_lt_succ hk)
      rwa [afterCharacter_cursor_toNat, afterCharacter_bg, Nat.add_right_comm, Nat.add_assoc] at hnext
  kept i hi hout := by
    rw [List.length_cons] at hout
    rw [hrest.kept i hi (by rw [afterCharacter_cursor_toNat]; omega)]
    simp only [afterCharacter_back]
    rw [Vector.getElem_set_ne _ _ (by omega)]
  front := hrest.front.trans (afterCharacter_front ch color h)
  bg := hrest.bg.trans (afterCharacter_bg ch color h)
  history := hrest.history.trans (afterCharacter_history ch color h)
  mem := hrest.mem.trans (afterCharacter_mem ch color h)

/-- PUTCs of characters that fit complete and stage them: each finds the cursor on the grid. -/
theorem runCommands_putc_of_fits {chars : List Byte} {color : Color} {s : State}
    (hchars : ∀ ch ∈ chars, ch ≠ newline) (hfits : s.cursor.toNat + chars.length ≤ cells) :
    ∃ t, runCommands (chars.map fun ch => .putc ch color) s = .next t ∧ StagesCharacters chars color s t := by
  induction chars generalizing s with
  | nil => exact ⟨s, runCommands_nil s, .nil color s⟩
  | cons ch chars ih =>
    rw [List.length_cons] at hfits
    have hgrid : s.cursor.toNat < cells := by omega
    obtain ⟨hch, hrest⟩ := List.forall_mem_cons.1 hchars
    obtain ⟨t, hrun, ht⟩ := ih (s := afterCharacter ch color s hgrid) hrest
      (by rw [afterCharacter_cursor_toNat]; omega)
    exact ⟨t, (runCommands_cons (exec_putc_of_lt color hch hgrid) _).trans hrun, ht.cons hgrid⟩

/-- Settles O28, by induction on the characters. -/
theorem charactersThatFitNeverScroll : Obligations.CharactersThatFitNeverScroll := by
  intro chars color s hchars hfits
  obtain ⟨t, hrun, hcursor, hci, hstaged, hkept, hfront, hbg, hhistory, hmem⟩ :=
    runCommands_putc_of_fits (color := color) hchars hfits
  exact ⟨t, hrun, hcursor, hci, hstaged, hkept, hfront, hbg, hhistory, fun a => by rw [hmem]⟩

/-! ## The assembler -/

theorem expandLine_puts {color : ColorOperand} {c : Color} (h : asmColor color = some c) (bytes : List Byte) :
    expandLine (.puts bytes color) = some (bytes.map fun b => .putc b c) := by
  simp only [expandLine, h]
  rfl

/-- The color of a newline is not read (30_encoding.md R93, 40_output.md R104). -/
theorem exec_putc_newline_color (s : State) (color color' : Color) :
    exec (.putc newline color) s = exec (.putc newline color') s := by
  rw [exec_putc_newline, exec_putc_newline]

/-- Settles O57: a PUTS line is a list of PUTCs, each of which decodes from its word. -/
theorem pseudoCommandsExpandToPutc : Obligations.PseudoCommandsExpandToPutc := by
  refine ⟨fun bytes color c hc => ⟨bytes.map fun b => encode (.putc b c), ?_, List.length_map .., fun k hk => ?_⟩,
    rfl, by decide, exec_putc_newline_color⟩
  · rw [assembleLine, expandLine_puts hc, Option.map_some, List.map_map]
    rfl
  · refine ⟨encode (.putc bytes[k] c), ?_, decode_encode_putc bytes[k] c⟩
    rw [List.getElem?_map, List.getElem?_eq_getElem hk, Option.map_some]

theorem asmChar_of_lt {n : Nat} (h : n < 256) : asmChar n = some (.ofNat 8 n) := if_pos h

theorem asmChar_of_ge {n : Nat} (h : ¬ n < 256) : asmChar n = none := if_neg h

theorem asmColor_number_of_lt {n : Nat} (h : n < 16) : asmColor (.number n) = some (.ofNat 4 n) := if_pos h

theorem asmColor_number_of_ge {n : Nat} (h : ¬ n < 16) : asmColor (.number n) = none := if_neg h

/-- A PUTAT line whose four operands fit their fields (30_encoding.md R91). -/
theorem expandLine_putat_number (ch color col row : Nat) :
    expandLine (.putat ch (.number color) col row) =
      if ch < 256 ∧ color < 16 ∧ col < 128 ∧ row < 32 then
        some [.putat (.ofNat 8 ch) (.ofNat 4 color) col row] else none := by
  by_cases hch : ch < 256
  · by_cases hcolor : color < 16
    · simp [expandLine, asmChar_of_lt hch, asmColor_number_of_lt hcolor, Instr.wellFormed, hch, hcolor]
    · simp [expandLine, asmChar_of_lt hch, asmColor_number_of_ge hcolor, hcolor]
  · simp [expandLine, asmChar_of_ge hch, hch]

/-- Settles O58, by the one equation of a PUTAT line. -/
theorem assemblerChecksOperandWidths : Obligations.AssemblerChecksOperandWidths := by
  intro ch color col row
  rw [assembleLine, expandLine_putat_number]
  refine ⟨fun h => if_pos h, fun h => ?_⟩
  rw [if_neg h, Option.map_none]

end Sys2Proof.Machine
end

section
/-! The character-output commands PUTC and PUTAT: packed colors, offsets, the cursor procedures, and what the staging
commands leave unchanged (40_output.md R100 to R107). -/

namespace Sys2Proof.Machine

open Sys2Proof.Config

/-! ## Packed colors and offsets -/

/-- Settles O25, by the two halves of a packed byte. -/
theorem packPutsBackgroundOverForeground : Obligations.PackPutsBackgroundOverForeground :=
  fun b f => ⟨rfl, attrFg_pack b f, attrBg_pack b f⟩

theorem offset_columnOf_rowOf (i : Nat) : offset (columnOf i) (rowOf i) = i := Nat.div_add_mod' i cols

/-- An offset in the grid has its coordinates in the grid (40_output.md R107). -/
theorem inGrid_of_lt {i : Nat} (h : i < cells) : InGrid (columnOf i) (rowOf i) :=
  ⟨Nat.mod_lt i (by decide), Nat.div_lt_of_lt_mul h⟩

/-- Settles O26: column and row are recovered from the offset, and the offset from them. -/
theorem offsetsAreRowMajor : Obligations.OffsetsAreRowMajor := by
  refine ⟨fun c r hc hr => ⟨rfl, offset_lt ⟨hc, hr⟩⟩, fun c r c' r' hc hr hc' hr' h => ?_, fun i hi => ?_⟩
  · have hcolumn := congrArg columnOf h
    have hrow := congrArg rowOf h
    rw [columnOf_offset ⟨hc, hr⟩, columnOf_offset ⟨hc', hr'⟩] at hcolumn
    rw [rowOf_offset ⟨hc, hr⟩, rowOf_offset ⟨hc', hr'⟩] at hrow
    exact ⟨hcolumn, hrow⟩
  · obtain ⟨hcolumn, hrow⟩ := inGrid_of_lt hi
    exact ⟨rfl, rfl, hcolumn, hrow, offset_columnOf_rowOf i⟩

/-! ## The cursor procedures -/

/-- A newline above the last row computes its cursor without a wrap (40_output.md R103, R106). -/
theorem newlineAdvance_cursor_toNat {s : State} (h : s.cursor.toNat < lastRowStart) :
    (newlineAdvance s).cursor.toNat = s.cursor.toNat - s.cursor.toNat % cols + cols := by
  rw [newlineAdvance_of_lt s h]
  apply toNat_ofNat_of_le_cells
  rw [lastRowStart_eq] at h
  rw [cols_eq, cells_eq]
  omega

/-- Settles O27, by what each procedure does to the cursor. -/
theorem cursorArithmeticNeverWraps : Obligations.CursorArithmeticNeverWraps := fun s =>
  ⟨fun h => ⟨advanceOne_cursor_toNat h, (advanceOne_cursor_toNat h).trans_le h⟩,
    fun h => ⟨newlineAdvance_cursor_toNat h, newlineAdvance_cursor_le s⟩,
    newlineAdvance_of_ge s, scroll_cursor_toNat s⟩

/-! ## PUTC -/

/-- Settles O18: with the cursor on the grid PUTC stages and advances, and advancing adds one. -/
theorem putcStagesAndAdvances : Obligations.PutcStagesAndAdvances := fun s ch color h hch =>
  (exec_putc_of_lt color hch h).trans (congrArg _ (advanceOne_of_lt (stage ⟨s.cursor.toNat, h⟩ ch color s) h))

theorem exec_putc_newline_of_ne {s : State} (color : Color) (h : s.cursor.toNat ≠ cells) :
    exec (.putc newline color) s = .next (newlineAdvance s) := by
  rw [exec_putc_newline, takePendingScroll_of_ne s h]

/-- Settles O19: no scroll is pending, and the newline moves the cursor only. -/
theorem putcNewlineMovesToTheNextRow : Obligations.PutcNewlineMovesToTheNextRow := fun s color h =>
  (exec_putc_newline_of_ne color (h.trans lastRowStart_lt_cells).ne).trans (congrArg _ (newlineAdvance_of_lt s h))

/-- A newline in the last row scrolls once (40_output.md R103, R104). -/
theorem exec_putc_newline_of_ge {s : State} (color : Color) (h : lastRowStart ≤ s.cursor.toNat)
    (hne : s.cursor.toNat ≠ cells) : exec (.putc newline color) s = .next (scroll s) := by
  rw [exec_putc_newline_of_ne color hne, newlineAdvance_of_ge s h]

/-- Settles O20: both commands answer `scroll s`. -/
theorem putcNewlineInTheLastRowScrollsOnce : Obligations.PutcNewlineInTheLastRowScrollsOnce := fun s color h hne =>
  ⟨scroll s, rfl, exec_putc_newline_of_ge color h hne⟩

/-- A pending scroll is taken first; after it no scroll is pending (40_output.md R104). -/
theorem exec_putc_of_pending {s : State} (ch : Byte) (color : Color) (h : s.cursor.toNat = cells) :
    exec (.putc ch color) s = exec (.putc ch color) (scroll s) := by
  show putAtCursor ch color (takePendingScroll s) = putAtCursor ch color (takePendingScroll (scroll s))
  rw [takePendingScroll_of_eq s h, takePendingScroll_of_ne (scroll s) lastRowStart_lt_cells.ne]

/-- Settles O21: after the pending scroll the cursor is at the start of the last row, where a newline scrolls once
more and a character is staged. -/
theorem putcTakesThePendingScrollFirst : Obligations.PutcTakesThePendingScrollFirst := by
  intro s ch color h
  rw [exec_putc_of_pending ch color h]
  by_cases hch : ch = 0x0A#8
  · subst hch
    have hputc : exec (.putc newline color) (scroll s) = .next (scroll (scroll s)) :=
      exec_putc_newline_of_ge color le_rfl lastRowStart_lt_cells.ne
    exact ⟨scroll s, scroll (scroll s), rfl, hputc, hputc, fun hne => absurd rfl hne,
      fun _ => ⟨rfl, scroll_cursor_toNat (scroll s)⟩⟩
  · have hputc := putcStagesAndAdvances (scroll s) ch color lastRowStart_lt_cells hch
    exact ⟨scroll s, _, rfl, hputc, hputc, fun _ => ⟨rfl, Vector.getElem?_set_self lastRowStart_lt_cells⟩,
      fun he => absurd he hch⟩

/-- PUTC leaves the cursor in its range (10_state.md R39, 40_output.md R106). -/
theorem execPutc_cursorInRange {ch : Byte} {color : Color} {s t : State} (h : execPutc ch color s = .next t) :
    CursorInRange t := by
  rcases execPutc_next h with ⟨-, rfl⟩ | ⟨-, hlt, rfl⟩
  · exact (newlineAdvance_cursor_le _).trans lastRowStart_lt_cells.le
  · rw [CursorInRange, advanceOne_cursor_toNat (by rwa [stage_cursor]), stage_cursor]
    exact hlt

/-- Settles O22: PUTC answers a next state, and every state it answers has its cursor in range. -/
theorem putcCompletes : Obligations.PutcCompletes := fun s ch color h => by
  obtain ⟨t, ht⟩ := execPutc_completes (s := s) h ch color
  exact ⟨t, ht, execPutc_cursorInRange ht⟩

/-! ## PUTAT -/

/-- Inside the bounds, the write that checks them is the plain write. -/
theorem setIfInBounds_of_lt {α : Type} {n i : Nat} (v : Vector α n) (x : α) (h : i < n) :
    v.setIfInBounds i x = v.set i x h := by
  apply Vector.ext
  intro j hj
  rw [Vector.getElem_setIfInBounds, Vector.getElem_set]

/-- Settles O23: the offset of coordinates in the grid is in bounds. -/
theorem putatStagesAtItsOffset : Obligations.PutatStagesAtItsOffset := by
  intro s ch color col row hcol hrow
  have hlt : row * cols + col < cells := offset_lt ⟨hcol, hrow⟩
  rw [exec_putat_of_inGrid s ch color ⟨hcol, hrow⟩, setIfInBounds_of_lt _ _ hlt]
  rfl

/-- Settles O24: the command raises RANGE with its own word. -/
theorem putatOutsideTheGridRecordsRange : Obligations.PutatOutsideTheGridRecordsRange := by
  intro s ch color col row h
  have hg : ¬ InGrid col row := fun ⟨hcol, hrow⟩ => h.elim hcol.not_ge hrow.not_ge
  exact ⟨_, exec_putat_of_not_inGrid s ch color hg, nothingButErrors_raiseError .range _ s,
    recordsError_raiseError .range _ s, rfl, rfl⟩

/-! ## What the staging commands leave unchanged -/

theorem exec_blinkToggle_of_draws_ne {i : Instr} {s t : State} (h : exec i s = .next t) :
    t.draws ≠ s.draws → i = .blinkToggle := by
  rcases exec_next_cases h with ⟨_, _, rfl⟩ | ⟨_, _, _, _, _, rfl⟩ | ⟨_, _, _, _, _, _, rfl⟩ |
    ⟨_, _, _, _, _, _, rfl⟩ | ⟨_, _, rfl⟩ | ⟨_, _, rfl⟩ | ⟨_, rfl⟩ | ⟨_, _, rfl⟩ | ⟨_, rfl⟩ |
    ⟨rfl, rfl⟩ <;> simp

/-- Of the commands only a PUTAT outside the grid records an error (60_exceptions.md R170). -/
theorem exec_sameErrorRecord {i : Instr} {s t : State} (h : exec i s = .next t)
    (hg : ∀ ch color col row, i = .putat ch color col row → InGrid col row) : SameErrorRecord s t := by
  rcases exec_next_cases h with ⟨_, _, rfl⟩ | ⟨_, _, _, _, _, rfl⟩ | ⟨_, _, _, _, _, _, rfl⟩ |
    ⟨_, _, _, _, rfl, hn, -⟩ | ⟨_, _, rfl⟩ | ⟨_, _, rfl⟩ | ⟨_, rfl⟩ | ⟨_, _, rfl⟩ | ⟨_, rfl⟩ |
    ⟨_, rfl⟩
  on_goal 4 => exact absurd (hg _ _ _ _ rfl) hn
  all_goals simp [SameErrorRecord]

/-- PUTAT changes no slot but the one at its offset (40_output.md R105). -/
theorem exec_putat_back_getElem_of_ne {ch : Byte} {color : Color} {col row : Nat} {s t : State}
    (h : exec (.putat ch color col row) s = .next t) {k : Nat} (hk : k < cells) (hne : k ≠ offset col row) :
    t.back[k] = s.back[k] := by
  rcases execPutat_next h with ⟨hg, rfl⟩ | ⟨-, rfl⟩
  · exact Vector.getElem_set_ne (offset_lt hg) hk hne.symm
  · rfl

/-- PUTC of a character on the grid changes no slot but the one at the cursor (40_output.md R104). -/
theorem exec_putc_back_getElem_of_ne {ch : Byte} {color : Color} {s t : State}
    (h : exec (.putc ch color) s = .next t) (hch : ch ≠ newline) (hlt : s.cursor.toNat < cells) {k : Nat}
    (hk : k < cells) (hne : k ≠ s.cursor.toNat) : t.back[k] = s.back[k] := by
  rw [putcStagesAndAdvances s ch color hlt hch] at h
  cases h
  exact Vector.getElem_set_ne hlt hk hne.symm

/-- PUTC of a newline above the last row changes no slot (40_output.md R103). -/
theorem exec_putc_newline_back {color : Color} {s t : State} (h : exec (.putc newline color) s = .next t)
    (hlt : s.cursor.toNat < lastRowStart) : t.back = s.back := by
  cases (putcNewlineMovesToTheNextRow s color hlt).symm.trans h
  rfl

/-- PUTC, PUTAT, SCROLL and SETBG: the commands whose results stay in the back buffer, the cursor, `BG` and the
error record. -/
def IsStaging (i : Instr) : Prop :=
  (∃ ch color, i = .putc ch color) ∨ (∃ ch color col row, i = .putat ch color col row) ∨
    i = .scroll ∨ (∃ color, i = .setbg color)

/-- A staging command is none of the writers of `FG`, `FRONT`, memory and the draws, and it emits nothing. -/
theorem IsStaging.not_other {i : Instr} (h : IsStaging i) :
    (¬ ∃ color, i = .setfg color) ∧ i ≠ .commit ∧ i ≠ .blinkToggle ∧ ∀ s, commandEvents i s = [] := by
  rcases h with ⟨_, _, rfl⟩ | ⟨_, _, _, _, rfl⟩ | rfl | ⟨_, rfl⟩ <;>
    exact ⟨nofun, nofun, nofun, fun _ => rfl⟩

/-- The two staging commands that leave the cursor alone are not its writers. -/
theorem not_putc_or_scroll {i : Instr}
    (h : (∃ ch color col row, i = .putat ch color col row) ∨ (∃ color, i = .setbg color)) :
    ¬ ((∃ ch color, i = .putc ch color) ∨ i = .scroll) := by
  rcases h with ⟨_, _, _, _, rfl⟩ | ⟨_, rfl⟩ <;> rintro (⟨_, _, h⟩ | h) <;> cases h

/-- Settles O49: each register is unchanged because the command is none of its writers, and the slots by the
effect of PUTAT and of PUTC. -/
theorem frameOfStagingCommands : Obligations.FrameOfStagingCommands := by
  intro s t i h hstaging
  obtain ⟨hsetfg, hcommit, hblink, hevents⟩ := IsStaging.not_other hstaging
  obtain ⟨hcursor, hbg, hfg, hfront, -⟩ := exec_changesOnlyWhatItWrites h
  obtain ⟨hci, hinputs, hparams⟩ := exec_next_frame h
  have hfgSame : t.fg = s.fg := of_not_not fun hne => hsetfg (hfg hne)
  have hfrontSame : t.front = s.front := of_not_not fun hne => hcommit (hfront hne)
  have hmem : t.mem = s.mem := of_not_not fun hne => hcommit (exec_commit_of_mem_ne h hne)
  have hdraws : t.draws = s.draws := of_not_not fun hne => hblink (exec_blinkToggle_of_draws_ne h hne)
  have hhistory : t.history = s.history := by rw [exec_history h, hevents, List.append_nil]
  refine ⟨hfgSame, hfrontSame, hhistory, fun a => by rw [hmem], hci, hinputs, hparams, hdraws, fun hsetbg => ?_,
    fun hi => of_not_not fun hne => not_putc_or_scroll hi (hcursor hne), exec_sameErrorRecord h, ?_, ?_, ?_⟩
  · exact of_not_not fun hne => (hbg hne).elim hsetbg
  · rintro ch color col row rfl k hk hne
    exact exec_putat_back_getElem_of_ne h hk hne
  · rintro ch color rfl hch hlt k hk hne
    exact exec_putc_back_getElem_of_ne h hch hlt hk hne
  · rintro color rfl hlt
    exact exec_putc_newline_back h hlt

end Sys2Proof.Machine
end

section
/-! SCROLL and COMMIT: the rows moved up, the events of a COMMIT, the commit laws, and what COMMIT leaves unchanged
(41_scroll_commit.md R120 to R124). -/

namespace Sys2Proof.Machine

open Sys2Proof.Config

/-! ## SCROLL -/

/-- Settles O29, by what a scrolled slot holds above the bottom row and in it. -/
theorem scrollMovesRowsUp : Obligations.ScrollMovesRowsUp := fun s =>
  ⟨scroll s, rfl, scroll_back_of_lt s, fun i h hi => scroll_back_of_ge s i h (Nat.sub_le_iff_le_add.1 hi),
    scroll_cursor_toNat s, rfl⟩

/-! ## The events of a COMMIT -/

theorem zipWith_toList_range {α β : Type} {n : Nat} (f : α → Nat → β) (v : Vector α n) :
    List.zipWith f v.toList (List.range n) = (List.finRange n).map fun i => f v[i.val] i.val :=
  List.ext_getElem (by simp) fun i _ _ => by simp

/-- COMMIT's events are the two stores of each staged slot, by increasing offset (41_scroll_commit.md R122). -/
theorem commandEvents_commit (s : State) : commandEvents .commit s = commitEvents s := by
  rw [commandEvents, commitStores, zipWith_toList_range, List.map_flatten, List.map_map, ← List.flatMap_def,
    commitEvents]
  congr 1
  funext i
  rw [Function.comp_apply]
  cases s.back[i.val] with
  | some c => rfl
  | none => rfl

/-- Settles O30, by COMMIT's events and what its slots and mirror cells hold after it. -/
theorem commitEmitsStagedCells : Obligations.CommitEmitsStagedCells := fun s hfits => by
  have hcommit := exec_commit_of_fits hfits
  refine ⟨commitStaged s, hcommit, ?_, commitStaged_back_getElem s, commitStaged_front_getElem s, rfl⟩
  rw [exec_history hcommit, commandEvents_commit]

/-! ## The commit laws -/

/-- With nothing staged a COMMIT makes no store (41_scroll_commit.md R122). -/
theorem commitStores_of_unstaged {s : State} (hn : ∀ (i : Nat) (h : i < cells), s.back[i] = none) :
    commitStores s = [] :=
  List.eq_nil_iff_forall_not_mem.2 fun _ hmem => by
    obtain ⟨i, hi, hstaged, -⟩ := addr_of_mem_commitStores hmem
    exact Option.isSome_iff_ne_none.1 hstaged (hn i hi)

/-- With nothing staged a COMMIT changes nothing (41_scroll_commit.md R123). -/
theorem commitStaged_of_unstaged {s : State} (hn : ∀ (i : Nat) (h : i < cells), s.back[i] = none) :
    commitStaged s = s := by
  have hback : Vector.replicate cells none = s.back :=
    Vector.ext fun i h => by rw [Vector.getElem_replicate, hn i h]
  have hfront : Grid.zipWith shown s.back s.front = s.front :=
    Vector.ext fun i h => by rw [Grid.getElem_zipWith, hn i h, shown]
  rw [commitStaged, commitStores_of_unstaged hn, hfront, hback, List.map_nil, List.append_nil]
  rfl

/-- A COMMIT leaves the mirror cell of an unstaged slot alone (41_scroll_commit.md R122). -/
theorem commitStaged_front_of_unstaged {s : State} {i : Nat} (h : i < cells) (hn : s.back[i] = none) :
    (commitStaged s).front[i] = s.front[i] := by
  rw [commitStaged_front_getElem s i h, hn, shown]

/-- Settles O32: after a COMMIT the region agrees with the mirror, the unstaged cells are as they were in both, and
nothing is left to commit. -/
theorem commitLaws : Obligations.CommitLaws := fun s hs => by
  obtain ⟨hfits, -⟩ := hs.params
  have hagrees := hs.mirrorAgrees_commitStaged
  have hunstaged := commitStaged_back_getElem s
  have hsecond : exec .commit (commitStaged s) = .next (commitStaged s) := by
    rw [exec_commit_of_fits (s := commitStaged s) hfits, commitStaged_of_unstaged hunstaged]
  exact ⟨commitStaged s, exec_commit_of_fits hfits, fun i h _ => ⟨hagrees i h, hunstaged i h⟩,
    fun i h hn => ⟨commitStaged_storedCell_of_unstaged hs.memory h hn, commitStaged_front_of_unstaged h hn⟩,
    hsecond, hagrees⟩

/-! ## What COMMIT leaves unchanged -/

/-- Settles O51: no register but the arrays is written, and a read elsewhere gives what it gave. -/
theorem frameOfCommit : Obligations.FrameOfCommit := fun s t hw h => by
  obtain rfl := exec_commit_next h
  exact ⟨rfl, rfl, rfl, ⟨rfl, rfl, rfl, rfl⟩, rfl, rfl, rfl, rfl, fun _ ha => commitStaged_read_elsewhere hw ha⟩

end Sys2Proof.Machine
end

section
/-! SETBG and SETFG, and what SETFG and the two port commands leave unchanged (42_color.md R140, R141;
43_display_ports.md R151, R152). -/

namespace Sys2Proof.Machine

open Sys2Proof.Config

/-! ## SETBG and SETFG -/

/-- Settles O40, by what a repainted slot holds and the two nibbles of a repainted cell. -/
theorem setbgRepaintsEveryCell : Obligations.SetbgRepaintsEveryCell := fun s b =>
  ⟨repaintAll b s, rfl, repaintAll_bg b s,
    fun i h => ⟨shown s.back[i] s.front[i], repaint b (shown s.back[i] s.front[i]), rfl,
      repaintAll_back_getElem b s i h, repaint_ch b _, attrFg_repaint b _, attrBg_repaint b _⟩,
    rfl⟩

/-- Settles O41: it is the definition of SETFG. -/
theorem setfgSetsOnlyTheForeground : Obligations.SetfgSetsOnlyTheForeground := fun _ _ => rfl

/-! ## What SETFG, CURSOR_OFF and BLINK_TOGGLE leave unchanged -/

/-- SETFG, CURSOR_OFF and BLINK_TOGGLE are none of the writers of the cursor, `BG`, the cell arrays, memory and the
error record. -/
theorem foregroundOrPort_not_other {i : Instr}
    (h : (∃ color, i = .setfg color) ∨ i = .cursorOff ∨ i = .blinkToggle) :
    (¬ ∃ ch color, i = .putc ch color) ∧ (∀ ch color col row, i ≠ .putat ch color col row) ∧ i ≠ .scroll ∧
      (¬ ∃ color, i = .setbg color) ∧ i ≠ .commit := by
  rcases h with ⟨_, rfl⟩ | rfl | rfl <;> exact ⟨nofun, nofun, nofun, nofun, nofun⟩

/-- Settles O50: each register is unchanged because the command is none of its writers, and SETFG emits nothing. -/
theorem frameOfForegroundAndPortCommands : Obligations.FrameOfForegroundAndPortCommands := by
  intro s t i h hi
  obtain ⟨hputc, hputat, hscroll, hsetbg, hcommit⟩ := foregroundOrPort_not_other hi
  obtain ⟨hcursor, hbg, hfg, hfront, hback⟩ := exec_changesOnlyWhatItWrites h
  obtain ⟨hci, hinputs, hparams⟩ := exec_next_frame h
  have hmem : t.mem = s.mem := of_not_not fun hne => hcommit (exec_commit_of_mem_ne h hne)
  have herr : SameErrorRecord s t :=
    exec_sameErrorRecord h fun ch color col row heq => absurd heq (hputat ch color col row)
  have hbackSame : t.back = s.back := by
    by_contra hne
    rcases hback hne with hw | ⟨_, _, _, _, hw⟩ | hw | hw | hw
    exacts [hputc hw, hputat _ _ _ _ hw, hscroll hw, hsetbg hw, hcommit hw]
  refine ⟨of_not_not fun hne => (hcursor hne).elim hputc hscroll, of_not_not fun hne => hsetbg (hbg hne),
    of_not_not fun hne => hcommit (hfront hne), hbackSame, herr, fun a => by rw [hmem], hci, hinputs, hparams,
    fun hsetfg => of_not_not fun hne => (hfg hne).elim hsetfg,
    fun hblink => of_not_not fun hne => hblink (exec_blinkToggle_of_draws_ne h hne), ?_⟩
  rintro ⟨color, rfl⟩
  exact (exec_history h).trans (List.append_nil s.history)

end Sys2Proof.Machine
end

section
/-! CURSOR_OFF and BLINK_TOGGLE: the exact state each leaves (43_display_ports.md R150 to R152). -/

namespace Sys2Proof.Machine

open Sys2Proof.Config

/-- Emitting twice appends both lists of events, in order (00_scope.md R12). -/
theorem emit_emit (first second : List Event) (s : State) :
    emit second (emit first s) = emit (first ++ second) s :=
  congrArg (fun events => { s with history := events }) (List.append_assoc s.history first second)

/-- Settles O43: CURSOR_OFF is two port writes, each of them one emitted event. -/
theorem cursorOffWritesTwoPorts : Obligations.CursorOffWritesTwoPorts := fun s =>
  congrArg Host.Outcome.next (emit_emit [.portWrite s.params.crtcIndex s.params.crtcCursorStart]
    [.portWrite s.params.crtcData s.params.cursorDisableValue] s)

/-- The sequence writes the history and the count of draws alone. -/
theorem blinkSequence_eq_update (d0 m : Byte) (s : State) :
    blinkSequence d0 m s = { s with
      history := (blinkSequence d0 m s).history
      draws := s.draws + 2 } := by
  simp only [blinkSequence, portRead, portWrite, emit]

/-- Settles O44: the controller's answers are the next two draws, and whatever they are the sequence changes only the
history, by its four events, and the count of draws. -/
theorem blinkToggleInvertsTheBlinkBit : Obligations.BlinkToggleInvertsTheBlinkBit := by
  refine ⟨fun s => ⟨portDraw s.draws, portDraw (s.draws + 1), rfl⟩, fun s d0 m => ?_⟩
  rw [blinkSequence_eq_update, blinkSequence_history]

end Sys2Proof.Machine
end

section
/-! Errors: what the step that raises one does, and that no other step touches the record (60_exceptions.md R170 to
R173, R183). -/

namespace Sys2Proof.Machine

open Sys2Proof.Config

theorem not_inGrid_iff {col row : Nat} : ¬ InGrid col row ↔ cols ≤ col ∨ rows ≤ row := by
  simp only [not_and_or, Nat.not_lt]

/-- What the step that takes a PUTAT outside the grid does: the word it records is the one taken, because a command
has one spelling (40_output.md R105, 30_encoding.md R87). -/
theorem step_of_putat_outside_grid {s : State} {w : Word} {rest : List Input} {ch : Byte} {color : Color}
    {col row : Nat} (hi : s.inputs = .command w :: rest) (hd : decode w = .command (.putat ch color col row))
    (hout : cols ≤ col ∨ rows ≤ row) :
    ∃ t, step s = .next t ∧ t.inputs = rest ∧ t.ci = s.ci + 1 ∧ NothingButErrors s t ∧
      RecordsError 2#2 w s t := by
  obtain ⟨hw, -⟩ := encodeOfDecode w _ hd
  refine ⟨advanceIndex (raiseError .range w { s with inputs := rest }), ?_, rfl, rfl, ?_, ?_⟩
  · rw [step_of_command hi hd, exec_putat_of_not_inGrid _ ch color (not_inGrid_iff.2 hout), hw, retire]
  · exact nothingButErrors_raiseError .range w { s with inputs := rest }
  · exact recordsError_raiseError .range w { s with inputs := rest }

/-- Settles O10, by the two causes: a word that decodes to no command, and a PUTAT outside the grid. -/
theorem rejectionHasNoOtherEffect : Obligations.RejectionHasNoOtherEffect := by
  rintro s w rest code hi (⟨rfl, hd⟩ | ⟨rfl, ch, color, col, row, hd, hout⟩)
  · exact step_of_illegal hi hd
  · exact step_of_putat_outside_grid hi hd hout

/-- A step that takes no word that raises an error, and no reset, leaves the record alone (60_exceptions.md R172). -/
theorem step_sameErrorRecord {s t : State} (h : step s = .next t) (hreset : ¬ NextIsReset s)
    (hno : ¬ ∃ w code, NextIsWord s w ∧ Raises w code) : SameErrorRecord s t := by
  rcases step_next_cases h with ⟨-, rfl⟩ | ⟨rest, hi, -⟩ | ⟨w, rest, why, hi, hd, -⟩ |
    ⟨w, rest, i, u, hi, hd, hu, rfl⟩
  · exact ⟨rfl, rfl, rfl, rfl⟩
  · exact absurd ⟨rest, hi⟩ hreset
  · exact absurd ⟨w, 1#2, ⟨rest, hi⟩, .inl ⟨rfl, why, hd⟩⟩ hno
  · have hgrid : ∀ ch color col row, i = .putat ch color col row → InGrid col row := by
      rintro ch color col row rfl
      by_contra hout
      exact hno ⟨w, 2#2, ⟨rest, hi⟩, .inr ⟨rfl, ch, color, col, row, hd, not_inGrid_iff.1 hout⟩⟩
    exact (exec_sameErrorRecord hu hgrid : SameErrorRecord { s with inputs := rest } u)

/-- Settles O11: a word that raises an error is recorded as O10 says, and every other step keeps the record. -/
theorem errorRecordIsStickyUntilReset : Obligations.ErrorRecordIsStickyUntilReset := by
  intro s t h hreset
  by_cases hraises : ∃ w code, NextIsWord s w ∧ Raises w code
  · obtain ⟨w, code, ⟨rest, hi⟩, hcode⟩ := hraises
    obtain ⟨t', ht', -, -, -, hrecords⟩ := rejectionHasNoOtherEffect s w rest code hi hcode
    cases h.symm.trans ht'
    exact .inl ⟨w, code, ⟨rest, hi⟩, hcode, hrecords⟩
  · exact .inr ⟨hraises, step_sameErrorRecord h hreset hraises⟩

/-- A word that raises ILLEGAL decodes to no command, so it is no PUTAT that could raise RANGE (60_exceptions.md
R173). -/
theorem Raises.unique {w : Word} {k k' : BitVec 2} (h : Raises w k) (h' : Raises w k') : k = k' := by
  rcases h with ⟨rfl, why, hd⟩ | ⟨rfl, ch, color, col, row, hd, -⟩ <;>
    rcases h' with ⟨rfl, why', hd'⟩ | ⟨rfl, ch', color', col', row', hd', -⟩
  · rfl
  · cases hd.symm.trans hd'
  · cases hd.symm.trans hd'
  · rfl

/-- The step that takes an ILLEGAL word records ILLEGAL and sets no RANGE bit (60_exceptions.md R172, R173). -/
theorem step_of_illegal_errRange {s : State} {w : Word} {rest : List Input} {why : Illegal}
    (hi : s.inputs = .command w :: rest) (hd : decode w = .illegal why) :
    ∃ t, step s = .next t ∧ t.inputs = rest ∧ RecordsError 1#2 w s t ∧ t.errRange = s.errRange := by
  obtain ⟨t, ht, hrest, -, -, hfirst, hlater, hillegal, hrange⟩ := step_of_illegal hi ⟨why, hd⟩
  exact ⟨t, ht, hrest, ⟨hfirst, hlater, hillegal, hrange⟩, hrange.trans (Bool.or_false _)⟩

/-- Settles O12: the example is ILLEGAL by a reserved bit, although its coordinates are outside the grid. -/
theorem illegalHasPriorityOverRange : Obligations.IllegalHasPriorityOverRange := by
  have hexample : decode 0x2FFFFFFF#32 = .illegal .reservedBits := by decide
  exact ⟨fun _ _ _ => Raises.unique, fun _ _ _ _ => step_of_illegal_errRange, by decide, by decide,
    fun _ _ hi => step_of_illegal_errRange hi hexample⟩

/-- Settles O7: it is the step's equation for an empty stream. -/
theorem idleKeepsTheState : Obligations.IdleKeepsTheState := fun _ => step_of_nil

end Sys2Proof.Machine
end

section
/-! The whole grid staged: which moves stage every slot and which keep them staged, the stores of the first COMMIT
after reset, and a cell staged under a pending scroll (70_reset_and_hazards.md R202, R207, R210, R211). -/

namespace Sys2Proof.Machine

open Sys2Proof.Config

/-! ## The operations -/

/-- Which slots are staged is decided by the back buffer alone (10_state.md R29). -/
theorem AllStaged.of_back_eq {s t : State} (hs : AllStaged s) (h : t.back = s.back) : AllStaged t := by
  unfold AllStaged
  rw [h]
  exact hs

theorem allStaged_scroll (s : State) : AllStaged (scroll s) := scroll_back_isSome s

theorem allStaged_repaintAll (b : Color) (s : State) : AllStaged (repaintAll b s) := fun i h => by
  rw [repaintAll_back_getElem, Option.isSome_some]

theorem allStaged_assertReset (s : State) : AllStaged (assertReset s) := fun i h => by
  rw [assertReset_back_getElem, Option.isSome_some]

theorem AllStaged.stage {s : State} (hs : AllStaged s) (k : Fin cells) (ch : Byte) (color : Color) :
    AllStaged (stage k ch color s) := fun i h =>
  Option.isSome_iff_ne_none.2 fun hn => Option.isSome_iff_ne_none.1 (hs i h) (stage_unstaged hn)

theorem AllStaged.takePendingScroll {s : State} (hs : AllStaged s) : AllStaged (takePendingScroll s) := by
  by_cases h : s.cursor.toNat = cells
  · rw [takePendingScroll_of_eq s h]; exact allStaged_scroll s
  · rw [takePendingScroll_of_ne s h]; exact hs

theorem AllStaged.newlineAdvance {s : State} (hs : AllStaged s) : AllStaged (newlineAdvance s) := by
  by_cases h : s.cursor.toNat < lastRowStart
  · rw [newlineAdvance_of_lt s h]; exact hs
  · rw [newlineAdvance_of_ge s (by omega)]; exact allStaged_scroll s

theorem AllStaged.advanceOne {s : State} (hs : AllStaged s) (h : s.cursor.toNat < cells) :
    AllStaged (advanceOne s) := by
  rw [advanceOne_of_lt s h]; exact hs

/-! ## Commands and steps -/

/-- Only COMMIT unstages a slot (10_state.md R29). -/
theorem exec_keeps_allStaged {i : Instr} {s t : State} (hs : AllStaged s) (h : exec i s = .next t)
    (hi : i ≠ .commit) : AllStaged t := by
  rcases exec_next_cases h with ⟨color, rfl, rfl⟩ | ⟨ch, color, rfl, -, hlt, rfl⟩ |
    ⟨ch, color, col, row, rfl, hg, rfl⟩ | ⟨ch, color, col, row, rfl, -, rfl⟩ | ⟨color, rfl, rfl⟩ |
    ⟨color, rfl, rfl⟩ | ⟨rfl, rfl⟩ | ⟨rfl, -, rfl⟩ | ⟨rfl, rfl⟩ | ⟨rfl, rfl⟩
  · exact hs.takePendingScroll.newlineAdvance
  · exact (hs.takePendingScroll.stage _ ch color).advanceOne hlt
  · exact hs.stage _ ch color
  · exact hs.of_back_eq (raiseError_back ..)
  · exact allStaged_repaintAll color s
  · exact hs.of_back_eq rfl
  · exact allStaged_scroll s
  · exact absurd rfl hi
  · exact hs.of_back_eq rfl
  · exact hs.of_back_eq (blinkSequence_back ..)

theorem step_keeps_allStaged {s t : State} (hs : AllStaged s) (h : step s = .next t)
    (hc : ¬ NextIsCommand s .commit) : AllStaged t := by
  rcases step_next_cases h with ⟨-, rfl⟩ | ⟨rest, -, rfl⟩ | ⟨w, rest, why, -, -, rfl⟩ |
    ⟨w, rest, i, u, hi, hd, hu, rfl⟩
  · exact hs
  · exact allStaged_assertReset _
  · exact hs.of_back_eq (raiseError_back .illegal w { s with inputs := rest })
  · have hne : i ≠ .commit := by
      rintro rfl
      exact hc ⟨w, ⟨rest, hi⟩, hd⟩
    have hu' : AllStaged u := exec_keeps_allStaged (s := { s with inputs := rest }) hs hu hne
    exact hu'.of_back_eq rfl

/-- A reset answers the reset state of the block, whatever moves follow. -/
theorem step_next_of_reset {s t : State} (h : step s = .next t) (hr : NextIsReset s) :
    ∃ rest, t = assertReset { s with inputs := rest } := by
  obtain ⟨rest, hi⟩ := hr
  exact ⟨rest, Host.Outcome.next.inj (h.symm.trans (step_of_reset hi))⟩

/-- Each staged slot makes two of a COMMIT's events (41_scroll_commit.md R122). -/
theorem AllStaged.length_commitEvents {s : State} (hs : AllStaged s) : (commitEvents s).length = 2 * cells := by
  rw [commitEvents, List.length_flatMap, List.map_eq_replicate_iff (b := 2) |>.2 fun i _ => ?_,
    List.sum_replicate, List.length_finRange, smul_eq_mul, Nat.mul_comm]
  obtain ⟨c, hc⟩ := Option.isSome_iff_exists.1 (hs i.val i.isLt)
  rw [hc]
  rfl

/-- Settles O36: reset stages every slot, only COMMIT unstages one, and a staged slot makes two stores. -/
theorem firstCommitAfterResetStoresEveryCell : Obligations.FirstCommitAfterResetStoresEveryCell := by
  refine ⟨fun s t h hr => ?_, fun s t hs h hc => step_keeps_allStaged hs h hc, fun s hs hfits => ?_⟩
  · obtain ⟨rest, rfl⟩ := step_next_of_reset h hr
    exact allStaged_assertReset _
  · have hcommit := exec_commit_of_fits hfits
    refine ⟨commitStaged s, hcommit, ?_⟩
    rw [exec_history hcommit, commandEvents_commit, List.length_append, hs.length_commitEvents]

/-- A PUTC that takes a pending scroll finds every slot staged, and a PUTC unstages none (70_reset_and_hazards.md
R210). -/
theorem exec_putc_of_pending_allStaged {s : State} (ch : Byte) (color : Color) (h : s.cursor.toNat = cells) :
    ∃ t, exec (.putc ch color) s = .next t ∧ AllStaged t := by
  obtain ⟨t, ht⟩ := execPutc_completes (s := s) h.le ch color
  have hscrolled : exec (.putc ch color) (scroll s) = .next t := (exec_putc_of_pending ch color h).symm.trans ht
  exact ⟨t, ht, exec_keeps_allStaged (allStaged_scroll s) hscrolled nofun⟩

/-- Settles O39: each of the commands scrolls or repaints, and PUTC unstages nothing after its scroll. -/
theorem wholeGridCommandsStageEverySlot : Obligations.WholeGridCommandsStageEverySlot := by
  refine ⟨fun s => ⟨scroll s, rfl, allStaged_scroll s⟩,
    fun s color => ⟨repaintAll color s, rfl, allStaged_repaintAll color s⟩,
    fun s ch color h => exec_putc_of_pending_allStaged ch color h, fun s color h => ?_⟩
  by_cases hpending : s.cursor.toNat = cells
  · exact exec_putc_of_pending_allStaged newline color hpending
  · exact ⟨scroll s, exec_putc_newline_of_ge color h hpending, allStaged_scroll s⟩

/-! ## A cell staged under a pending scroll -/

theorem stage_back_getElem_self (k : Fin cells) (ch : Byte) (color : Color) (s : State) :
    (stage k ch color s).back[k.val] = some ⟨ch, pack s.bg color⟩ := Vector.getElem_set_self k.isLt

/-- A cell below the top row stands one row higher after a scroll (41_scroll_commit.md R120). -/
theorem scroll_stage_back_getElem? {k : Fin cells} {i : Nat} (hk : i + cols = k.val) (ch : Byte) (color : Color)
    (s : State) : (scroll (stage k ch color s)).back[i]? = some (some ⟨ch, pack s.bg color⟩) := by
  have h : i + cols < cells := hk.trans_lt k.isLt
  obtain rfl : k = ⟨i + cols, h⟩ := Fin.ext hk.symm
  rw [Vector.getElem?_eq_getElem (Nat.lt_of_add_right_lt h), scroll_back_of_lt _ i h,
    stage_back_getElem_self ⟨i + cols, h⟩, shown_some]

/-- A scroll drops the top row, so nothing of a cell staged there is left (41_scroll_commit.md R120). -/
theorem scroll_stage_of_topRow {k : Fin cells} (hk : k.val < cols) (ch : Byte) (color : Color) (s : State) :
    scroll (stage k ch color s) = scroll s := by
  have hback : (scroll (stage k ch color s)).back = (scroll s).back := Vector.ext fun i hi => by
    by_cases hrow : i + cols < cells
    · have hslot : (stage k ch color s).back[i + cols] = s.back[i + cols] :=
        Vector.getElem_set_ne k.isLt hrow (by omega)
      rw [scroll_back_of_lt _ i hrow, scroll_back_of_lt _ i hrow, hslot, stage_front]
    · rw [scroll_back_of_ge _ i hi (by omega), scroll_back_of_ge _ i hi (by omega), stage_params, stage_bg]
  exact congrArg (fun slots => { scroll s with back := slots }) hback

/-- A character under a pending scroll is staged at the start of the last row, so the rows above are the scrolled
ones (40_output.md R104). -/
theorem exec_putc_of_pending_back {s : State} {ch : Byte} (color : Color) (h : s.cursor.toNat = cells)
    (hch : ch ≠ newline) :
    ∃ u, exec (.putc ch color) s = .next u ∧
      ∀ i < lastRowStart, u.back[i]? = (scroll s).back[i]? := by
  have hputc := putcStagesAndAdvances (scroll s) ch color lastRowStart_lt_cells hch
  exact ⟨_, (exec_putc_of_pending ch color h).trans hputc,
    fun i hi => Vector.getElem?_set_ne lastRowStart_lt_cells hi.ne'⟩

/-- Settles O60: the cell is staged before the scroll, which moves it up a row or drops it with the top row. -/
theorem putatUnderPendingScrollMovesUp : Obligations.PutatUnderPendingScrollMovesUp := by
  intro s ch ch' color color' col row hcursor hcol hrow hch'
  have hk : row * cols + col < cells := offset_lt ⟨hcol, hrow⟩
  have hpending : (stage ⟨row * cols + col, hk⟩ ch color s).cursor.toNat = cells := hcursor
  obtain ⟨u, hu, hback⟩ := exec_putc_of_pending_back color' hpending hch'
  refine ⟨_, u, exec_putat_of_inGrid s ch color ⟨hcol, hrow⟩, hcursor,
    Vector.getElem?_set_self hk, hu, fun hone => ?_, fun hzero => ⟨u, ?_, rfl⟩⟩
  · have hrowAbove : (row - 1) * cols + col + cols = row * cols + col := by
      rw [cols_eq]
      omega
    have habove : (row - 1) * cols + col < lastRowStart := Nat.lt_sub_of_add_lt (hrowAbove.trans_lt hk)
    exact (hback _ habove).trans (scroll_stage_back_getElem? hrowAbove ch color s)
  · rw [← hu, exec_putc_of_pending ch' color' hcursor, exec_putc_of_pending ch' color' hpending,
      scroll_stage_of_topRow (by simpa [hzero] using hcol)]

end Sys2Proof.Machine
end

section
/-! The front mirror and the video region: from a COMMIT on they agree at every cell (70_reset_and_hazards.md R204,
41_scroll_commit.md R123). -/

namespace Sys2Proof.Machine

open Sys2Proof.Config

/-- The step that takes a COMMIT commits the staged cells and advances the index. -/
theorem step_next_of_commit {s t : State} (h : step s = .next t) (hc : NextIsCommand s .commit) :
    ∃ rest, t = advanceIndex (commitStaged { s with inputs := rest }) := by
  obtain ⟨w, ⟨rest, hi⟩, hd⟩ := hc
  rw [step_of_command hi hd] at h
  cases hu : exec .commit { s with inputs := rest } with
  | next u =>
    obtain rfl := exec_commit_next hu
    rw [hu] at h
    exact ⟨rest, (Host.Outcome.next.inj h).symm⟩
  | fault f => rw [hu] at h; cases h
  | refused r => rw [hu] at h; cases h

theorem Invariant.mirrorAgrees_of_commit {s t : State} (hs : Invariant s) (h : step s = .next t)
    (hc : NextIsCommand s .commit) : MirrorAgrees t := by
  obtain ⟨rest, rfl⟩ := step_next_of_commit h hc
  exact (hs.setInputs rest).mirrorAgrees_commitStaged

/-- The agreement speaks of the region, the parameters and the mirror alone. -/
theorem MirrorAgrees.of_same {s t : State} (hs : MirrorAgrees s) (hmem : t.mem = s.mem)
    (hparams : t.params = s.params) (hfront : t.front = s.front) : MirrorAgrees t := fun i h => by
  rw [storedCell, hmem, hparams, hfront]
  exact hs i h

theorem step_front_of_not_commit {s t : State} (h : step s = .next t) (hr : ¬ NextIsReset s)
    (hc : ¬ NextIsCommand s .commit) : t.front = s.front := by
  by_contra hne
  obtain ⟨-, -, -, hfront, -⟩ := (eachRegisterHasItsWriters s t h).2 hr
  exact hc (hfront hne)

/-- With every slot staged, any mirror is one that differs only under staged slots. -/
theorem AllStaged.sameButHiddenMirror {s : State} (hs : AllStaged s) (f : Vector Cell cells) :
    SameButHiddenMirror s { s with front := f } :=
  ⟨rfl, fun i h hn => absurd hn (Option.isSome_iff_ne_none.1 (hs i h))⟩

/-- Settles O37: a COMMIT makes mirror and region agree, every other step but a reset changes neither, and the mirror
under staged slots is not read. -/
theorem mirrorAgreement : Obligations.MirrorAgreement := by
  refine ⟨fun s t hs h hc => hs.mirrorAgrees_of_commit h hc, fun s t hs hagrees h hr => ?_,
    fun s t f hs h => ?_⟩
  · by_cases hc : NextIsCommand s .commit
    · exact hs.mirrorAgrees_of_commit h hc
    · exact hagrees.of_same (step_mem_of_not_commit h hc) (step_params h) (step_front_of_not_commit h hr hc)
  · obtain ⟨hnext, -⟩ := hiddenMirrorCellsStayUnobservable s _ (hs.sameButHiddenMirror f)
    obtain ⟨u, hu, hsame, -⟩ := hnext t h
    exact ⟨u, hu, hsame⟩

end Sys2Proof.Machine
end

section
/-! Reset, and the error record no command reads (70_reset_and_hazards.md R200, R201, R205, R212). -/

namespace Sys2Proof.Machine

open Sys2Proof.Config

/-! ## The error record is not read -/

/-- Two states that differ at most in the error record. -/
def SameButErrorRecord (s s' : State) : Prop :=
  s' = { s with errRange := s'.errRange, errIllegal := s'.errIllegal, errCause := s'.errCause,
                errWord := s'.errWord }

/-- An operation keeps the relation if it does from the state with any other error record. -/
theorem SameButErrorRecord.map {op : State → State} {s s' : State} (h : SameButErrorRecord s s')
    (hop : ∀ er ei ec ew, SameButErrorRecord (op s)
      (op { s with errRange := er, errIllegal := ei, errCause := ec, errWord := ew })) :
    SameButErrorRecord (op s) (op s') := by
  rw [h]
  exact hop _ _ _ _

/-- Only `raiseError` reads the error record, and it changes nothing else (60_exceptions.md R172). -/
theorem keptByOps_sameButErrorRecord : KeptByOps SameButErrorRecord where
  inputs h := by rw [h]
  params h := by rw [h]
  cursor h := by rw [h]
  draws h := by rw [h]
  setInputs l h := h.map (op := fun s => { s with inputs := l }) fun _ _ _ _ => rfl
  setCursor c h := h.map (op := fun s => { s with cursor := c }) fun _ _ _ _ => rfl
  setFg c h := h.map (op := fun s => { s with fg := c }) fun _ _ _ _ => rfl
  advanceIndex h := h.map fun _ _ _ _ => rfl
  portWrite _ _ h := h.map fun _ _ _ _ => rfl
  portRead _ _ h := h.map fun _ _ _ _ => rfl
  raiseError _ _ h := h.map fun _ _ _ _ => rfl
  stage _ _ _ h := h.map fun _ _ _ _ => rfl
  scroll h := h.map fun _ _ _ _ => rfl
  repaintAll _ h := h.map fun _ _ _ _ => rfl
  commitStaged h := h.map fun _ _ _ _ => rfl
  assertReset h := h.map fun _ _ _ _ => rfl

/-- Settles O13: `SameButErrorRecord` is a relation every operation keeps. -/
theorem errorRecordIsNotRead : Obligations.ErrorRecordIsNotRead := fun s er ei ec ew =>
  (keptByOps_sameButErrorRecord.step (s := s)
    (s' := { s with errRange := er, errIllegal := ei, errCause := ec, errWord := ew }) rfl).next_and_fault

/-! ## Reset -/

/-- From `s` to `t` no recorded error is lost: a set bit stays set, and the first error keeps its cause and word. -/
structure KeepsRecordedErrors (s t : State) : Prop where
  first : s.errCause ≠ 0#2 → t.errCause = s.errCause ∧ t.errWord = s.errWord
  range : s.errRange = true → t.errRange = true
  illegal : s.errIllegal = true → t.errIllegal = true

theorem RecordsError.keepsRecordedErrors {code : BitVec 2} {w : Word} {s t : State}
    (h : RecordsError code w s t) : KeepsRecordedErrors s t := by
  obtain ⟨-, hlater, hillegal, hrange⟩ := h
  exact ⟨hlater, fun hs => by rw [hrange, hs, Bool.true_or], fun hs => by rw [hillegal, hs, Bool.true_or]⟩

theorem SameErrorRecord.keepsRecordedErrors {s t : State} (h : SameErrorRecord s t) :
    KeepsRecordedErrors s t := by
  obtain ⟨hrange, hillegal, hcause, hword⟩ := h
  exact ⟨fun _ => ⟨hcause, hword⟩, hrange.trans, hillegal.trans⟩

theorem step_keepsRecordedErrors {s t : State} (h : step s = .next t) (hr : ¬ NextIsReset s) :
    KeepsRecordedErrors s t := by
  rcases errorRecordIsStickyUntilReset s t h hr with ⟨w, code, -, -, hrecords⟩ | ⟨-, hsame⟩
  · exact hrecords.keepsRecordedErrors
  · exact hsame.keepsRecordedErrors

/-- Settles O15: the fields of the state after a reset, and that every other step keeps the errors recorded. -/
theorem resetSetsTheBlockState : Obligations.ResetSetsTheBlockState := by
  refine ⟨fun s rest hi => ⟨assertReset { s with inputs := rest }, step_of_reset hi, rfl, rfl, rfl, rfl, rfl,
    assertReset_back_getElem { s with inputs := rest }, rfl, rfl, rfl, rfl, rfl⟩, fun s t h hlost => ?_⟩
  by_contra hr
  obtain ⟨hfirst, hrange, hillegal⟩ := step_keepsRecordedErrors h hr
  rcases hlost with ⟨hset, hne⟩ | ⟨hset, hclear⟩ | ⟨hset, hclear⟩
  · obtain ⟨hcause, hword⟩ := hfirst hset
    exact hne.elim (absurd hcause) (absurd hword)
  · exact Bool.noConfusion (hclear.symm.trans (hrange hset))
  · exact Bool.noConfusion (hclear.symm.trans (hillegal hset))

/-- Settles O16: reset emits and stores nothing, and of the commands only COMMIT stores. -/
theorem resetTouchesNothingOutside : Obligations.ResetTouchesNothingOutside := by
  refine ⟨fun s t h hr => ?_, fun s t h hc a => by rw [step_mem_of_not_commit h hc]⟩
  obtain ⟨rest, rfl⟩ := step_next_of_reset h hr
  exact ⟨rfl, fun _ => rfl⟩

end Sys2Proof.Machine
end

section
/-! The boot sequence (70_reset_and_hazards.md R203). -/

namespace Sys2Proof.Machine

open Sys2Proof.Config

/-- The state after the boot sequence: CURSOR_OFF, BLINK_TOGGLE, SETBG and SETFG, and the index after each. -/
def afterBoot (bg fg : Color) (s : State) : State :=
  advanceIndex { advanceIndex (repaintAll bg (advanceIndex
    (blinkSequence (portDraw s.draws) (portDraw (s.draws + 1)) (advanceIndex
      (portWrite s.params.crtcData s.params.cursorDisableValue
        (portWrite s.params.crtcIndex s.params.crtcCursorStart s)))))) with fg := fg }

theorem runCommands_bootSequence (bg fg : Color) (s : State) :
    runCommands (bootSequence bg fg) s = .next (afterBoot bg fg s) := rfl

theorem afterBoot_history (bg fg : Color) (s : State) : (afterBoot bg fg s).history = s.history ++
    [.portWrite s.params.crtcIndex s.params.crtcCursorStart,
     .portWrite s.params.crtcData s.params.cursorDisableValue,
     .portRead s.params.inputStatus1 (portDraw s.draws),
     .portWrite s.params.attrIndex s.params.attrModeSelect,
     .portRead s.params.attrDataRead (portDraw (s.draws + 1)),
     .portWrite s.params.attrIndex (portDraw (s.draws + 1) ^^^ s.params.blinkBit)] := by
  simp [afterBoot]

/-- SETBG reads the two cell arrays and nothing else (42_color.md R140). -/
theorem repaintAll_back_congr (b : Color) {s t : State} (hback : t.back = s.back) (hfront : t.front = s.front) :
    (repaintAll b t).back = (repaintAll b s).back := by
  simp only [repaintAll, hback, hfront]

/-- The two port commands before SETBG leave the cell arrays alone, and SETFG after it the slots. -/
theorem afterBoot_back (bg fg : Color) (s : State) : (afterBoot bg fg s).back = (repaintAll bg s).back := by
  simp only [afterBoot, advanceIndex_back]
  exact repaintAll_back_congr bg (by simp) (by simp)

theorem afterBoot_attrBg {bg fg : Color} {s : State} {i : Nat} {h : i < cells} {c : Cell}
    (hc : (afterBoot bg fg s).back[i] = some c) : attrBg c.attr = bg := by
  simp only [afterBoot_back, repaintAll_back_getElem] at hc
  obtain rfl := Option.some.inj hc
  exact attrBg_repaint bg _

theorem afterBoot_registers (bg fg : Color) (s : State) :
    (afterBoot bg fg s).bg = bg ∧ (afterBoot bg fg s).fg = fg ∧ (afterBoot bg fg s).ci = s.ci + 4 := by
  simp [afterBoot]

theorem afterBoot_frame (bg fg : Color) (s : State) :
    (afterBoot bg fg s).cursor = s.cursor ∧ SameErrorRecord s (afterBoot bg fg s) ∧
      (afterBoot bg fg s).mem = s.mem := by
  simp [afterBoot, SameErrorRecord]

/-- Settles O59, by the fields of the state after the sequence. -/
theorem bootSequenceCompletes : Obligations.BootSequenceCompletes := fun s bg fg => by
  obtain ⟨hbg, hfg, hci⟩ := afterBoot_registers bg fg s
  obtain ⟨hcursor, herrors, hmem⟩ := afterBoot_frame bg fg s
  have hstaged : AllStaged (afterBoot bg fg s) :=
    (allStaged_repaintAll bg s).of_back_eq (afterBoot_back bg fg s)
  exact ⟨afterBoot bg fg s, portDraw s.draws, portDraw (s.draws + 1), runCommands_bootSequence bg fg s,
    afterBoot_history bg fg s, hbg, hfg, hci, hstaged, fun _ _ _ hc => afterBoot_attrBg hc, hcursor, herrors,
    fun a => by rw [hmem]⟩

end Sys2Proof.Machine
end
